-- ==== Sys2Proof/Word.lean ====
section
/-!
DEFINITION. The data types of the ChaCha20 block permutation engine: words, bytes, the two register
arrays' type, the fields of the sequencer word, and what the host's input ports carry at one event.
-/

namespace Sys2Proof

/-- A state word: 32 bits, unsigned (R7, R13). -/
abbrev Word := BitVec 32

/-- A byte: 8 bits (R33). -/
abbrev Byte := BitVec 8

/-- A 16-word state, the type of `X`, of `W` and of every value the rounds work on (R13, R15). -/
abbrev Words16 := Vector Word 16

/-- The 64 bytes of an output block, the type of `OUT` (R18). -/
abbrev OutBytes := Vector Byte 64

/-- The phase field `PH` of the sequencer word (R22). -/
inductive Phase where
  | idle
  | copy
  | mix
  | final
deriving DecidableEq, Repr, Inhabited

/-- The sequencer word `SW = (PH, DR, G)` by its three fields (R22). Its 9 bits are `SeqWord.toBits`. -/
structure SeqWord where
  /-- `PH`, which kind of micro-operation is next. -/
  ph : Phase
  /-- `DR`, how many double rounds are complete. -/
  dr : BitVec 4
  /-- `G`, the group the next quarter round applies to. -/
  g : BitVec 3
deriving DecidableEq, Repr, Inhabited

/-- A host command as the tuple sampled at its acceptance (R51). -/
structure CmdWord where
  /-- `cmd_op[1:0]` -/
  op : BitVec 2
  /-- `key_in[255:0]` -/
  key : BitVec 256
  /-- `nonce_in[95:0]` -/
  nonce : BitVec 96
  /-- `ctr_in[31:0]` -/
  ctr : BitVec 32
deriving DecidableEq, Repr, Inhabited

/-- The values on the engine's input ports at one event (R49; `clk` is the event itself). -/
structure InPorts where
  /-- `rst`, active high. -/
  rst : Bool
  /-- `cmd_valid` -/
  cmdValid : Bool
  /-- `cmd_op`, `key_in`, `nonce_in`, `ctr_in` -/
  cmd : CmdWord
deriving DecidableEq, Repr, Inhabited

/-- Four words: the operands and the result of a quarter round (R78). -/
structure Quad where
  a : Word
  b : Word
  c : Word
  d : Word
deriving DecidableEq, Repr

/-- An index group: an ordered 4-tuple of state indices, by the role each plays (R58, R80). -/
structure Group where
  a : Fin 16
  b : Fin 16
  c : Fin 16
  d : Fin 16
deriving DecidableEq, Repr

/-- The data registers together, as the free values of `Config` take and give them (R29). -/
structure DataRegs where
  x : Words16
  w : Words16
  out : OutBytes
deriving DecidableEq, Repr, Inhabited

end Sys2Proof
end

