-- ==== Sys2Proof/Syntax.lean ====
section
/-!
DEFINITION. The instructions: one constructor for each row of spec/opcode_table.json, four host
commands (format CMD, R51, R52) and eleven sequencer micro-operations (format SEQ, R57).
-/

namespace Sys2Proof

/-- A command or a micro-operation. A command carries exactly the operand ports it uses (R52, R53) as
the ports give them; a QR micro-operation carries the `DR` field of its word (R57, log 8). -/
inductive Instr where
  /-- INIT (R67): load key and nonce. -/
  | init (key : BitVec 256) (nonce : BitVec 96)
  /-- SETCTR (R70): set the block counter. -/
  | setctr (ctr : BitVec 32)
  /-- START (R111): compute the block of the current state. -/
  | start
  /-- BLOCK (R113): load key, counter and nonce and compute their block. -/
  | block (key : BitVec 256) (ctr : BitVec 32) (nonce : BitVec 96)
  /-- IDLE (R94): the sequencer does nothing. -/
  | idle
  /-- COPY (R88): `W <- X`. -/
  | copy
  /-- QR.C0 (R95): quarter round at (0, 4, 8, 12). -/
  | qrC0 (dr : BitVec 4)
  /-- QR.C1 (R96): quarter round at (1, 5, 9, 13). -/
  | qrC1 (dr : BitVec 4)
  /-- QR.C2 (R97): quarter round at (2, 6, 10, 14). -/
  | qrC2 (dr : BitVec 4)
  /-- QR.C3 (R98): quarter round at (3, 7, 11, 15). -/
  | qrC3 (dr : BitVec 4)
  /-- QR.D0 (R99): quarter round at (0, 5, 10, 15). -/
  | qrD0 (dr : BitVec 4)
  /-- QR.D1 (R100): quarter round at (1, 6, 11, 12). -/
  | qrD1 (dr : BitVec 4)
  /-- QR.D2 (R101): quarter round at (2, 7, 8, 13). -/
  | qrD2 (dr : BitVec 4)
  /-- QR.D3 (R102): quarter round at (3, 4, 9, 14). -/
  | qrD3 (dr : BitVec 4)
  /-- FINAL (R105): feed-forward and serialise. -/
  | final
deriving DecidableEq, Repr

end Sys2Proof
end

