-- ==== Sys2Proof/WellFormed.lean ====
section
/-!
DEFINITION. Which instructions a word of the engine stands for: a QR micro-operation's `DR` is one of
0 to 9 (R60); every operand of a command is legal (R59).
-/

namespace Sys2Proof

/-- `DR` in 10 to 15 is reserved (R60). -/
def drLegal (dr : BitVec 4) : Bool := decide (dr.toNat ≤ 9)

/-- The instruction is one that some command or some reachable sequencer word stands for (R59, R60). -/
def Instr.wf : Instr → Bool
  | .init _ _ => true
  | .setctr _ => true
  | .start => true
  | .block _ _ _ => true
  | .idle => true
  | .copy => true
  | .qrC0 dr => drLegal dr
  | .qrC1 dr => drLegal dr
  | .qrC2 dr => drLegal dr
  | .qrC3 dr => drLegal dr
  | .qrD0 dr => drLegal dr
  | .qrD1 dr => drLegal dr
  | .qrD2 dr => drLegal dr
  | .qrD3 dr => drLegal dr
  | .final => true

end Sys2Proof
end

