-- ==== Sys2Proof/Decode.lean ====
section
/-!
DEFINITION. The opcode table, the decoder of the two formats and the encoder (30_encoding.md).
-/

namespace Sys2Proof

/-! ## The sequencer word's bits (R22, R56) -/

/-- `PH` as two bits: 0 IDLE, 1 COPY, 2 MIX, 3 FINAL (R22). -/
def Phase.toBits : Phase → BitVec 2
  | .idle => 0
  | .copy => 1
  | .mix => 2
  | .final => 3

/-- The phase two bits stand for (R22). -/
def Phase.ofBits (b : BitVec 2) : Phase :=
  match b.toNat with
  | 0 => .idle
  | 1 => .copy
  | 2 => .mix
  | _ => .final

/-- `SW = {PH[1:0], DR[3:0], G[2:0]}` (R56). -/
def SeqWord.toBits (q : SeqWord) : BitVec 9 := q.ph.toBits ++ q.dr ++ q.g

/-- `PH = SW[8:7]`, `DR = SW[6:3]`, `G = SW[2:0]` (R22). -/
def SeqWord.ofBits (w : BitVec 9) : SeqWord :=
  ⟨Phase.ofBits (w.extractLsb' 7 2), w.extractLsb' 3 4, w.extractLsb' 0 3⟩

/-- One of the 83 reachable sequencer words (R60). -/
def SeqWord.reachable (q : SeqWord) : Bool :=
  match q.ph with
  | .mix => drLegal q.dr
  | .idle => decide (q.dr = 0 ∧ q.g = 0)
  | .copy => decide (q.dr = 0 ∧ q.g = 0)
  | .final => decide (q.dr = 0 ∧ q.g = 0)

/-! ## Decoding -/

/-- What an event decodes: a command on the ports, or the sequencer word (30_encoding.md, head). -/
inductive EncodedWord where
  | cmd (c : CmdWord)
  | seq (w : BitVec 9)
deriving DecidableEq, Repr

/-- Why a word is rejected. -/
inductive DecodeError where
  /-- The sequencer word is none of the 83 reachable ones (R60). -/
  | reservedSequencerWord
deriving DecidableEq, Repr

/-- A command by its code; the ports the command does not use are ignored (R52, R53). Every code is a
command (R59). -/
def decodeCmd (c : CmdWord) : Instr :=
  match c.op.toNat with
  | 0 => .init c.key c.nonce
  | 1 => .setctr c.ctr
  | 2 => .start
  | _ => .block c.key c.ctr c.nonce

/-- The QR micro-operation that `G` selects (R57). -/
def decodeMix (g : BitVec 3) (dr : BitVec 4) : Instr :=
  match g.toNat with
  | 0 => .qrC0 dr
  | 1 => .qrC1 dr
  | 2 => .qrC2 dr
  | 3 => .qrC3 dr
  | 4 => .qrD0 dr
  | 5 => .qrD1 dr
  | 6 => .qrD2 dr
  | _ => .qrD3 dr

/-- The micro-operation of a sequencer word by its phase (R57), a reserved word rejected (R60, log 6). -/
def decodeSeq (q : SeqWord) : Except DecodeError Instr :=
  if q.reachable then
    match q.ph with
    | .idle => .ok .idle
    | .copy => .ok .copy
    | .mix => .ok (decodeMix q.g q.dr)
    | .final => .ok .final
  else .error .reservedSequencerWord

/-- The decoder of both formats. -/
def decode : EncodedWord → Except DecodeError Instr
  | .cmd c => .ok (decodeCmd c)
  | .seq w => decodeSeq (SeqWord.ofBits w)

/-! ## Encoding -/

/-- The word of an instruction, with 0 on the ports a command does not use (R52, R56, R57). -/
def encode : Instr → EncodedWord
  | .init key nonce => .cmd ⟨0b00, key, nonce, 0⟩
  | .setctr ctr => .cmd ⟨0b01, 0, 0, ctr⟩
  | .start => .cmd ⟨0b10, 0, 0, 0⟩
  | .block key ctr nonce => .cmd ⟨0b11, key, nonce, ctr⟩
  | .idle => .seq 0b000000000
  | .copy => .seq 0b010000000
  | .qrC0 dr => .seq (0b10#2 ++ dr ++ 0b000#3)
  | .qrC1 dr => .seq (0b10#2 ++ dr ++ 0b001#3)
  | .qrC2 dr => .seq (0b10#2 ++ dr ++ 0b010#3)
  | .qrC3 dr => .seq (0b10#2 ++ dr ++ 0b011#3)
  | .qrD0 dr => .seq (0b10#2 ++ dr ++ 0b100#3)
  | .qrD1 dr => .seq (0b10#2 ++ dr ++ 0b101#3)
  | .qrD2 dr => .seq (0b10#2 ++ dr ++ 0b110#3)
  | .qrD3 dr => .seq (0b10#2 ++ dr ++ 0b111#3)
  | .final => .seq 0b110000000

/-! ## The opcode table (R63) -/

/-- The two formats of a word. -/
inductive Format where
  | cmd
  | seq
deriving DecidableEq, Repr

/-- A row of spec/opcode_table.json: a word `w` of the format selects the row when `w & mask = value`. -/
structure OpcodeRow where
  mnemonic : String
  format : Format
  value : Nat
  mask : Nat
deriving DecidableEq, Repr

/-- The row of an instruction, with the table's own numbers (R63). -/
def Instr.row : Instr → OpcodeRow
  | .init _ _ => ⟨"INIT", .cmd, 0, 3⟩
  | .setctr _ => ⟨"SETCTR", .cmd, 1, 3⟩
  | .start => ⟨"START", .cmd, 2, 3⟩
  | .block _ _ _ => ⟨"BLOCK", .cmd, 3, 3⟩
  | .idle => ⟨"IDLE", .seq, 0, 384⟩
  | .copy => ⟨"COPY", .seq, 128, 384⟩
  | .qrC0 _ => ⟨"QR.C0", .seq, 256, 391⟩
  | .qrC1 _ => ⟨"QR.C1", .seq, 257, 391⟩
  | .qrC2 _ => ⟨"QR.C2", .seq, 258, 391⟩
  | .qrC3 _ => ⟨"QR.C3", .seq, 259, 391⟩
  | .qrD0 _ => ⟨"QR.D0", .seq, 260, 391⟩
  | .qrD1 _ => ⟨"QR.D1", .seq, 261, 391⟩
  | .qrD2 _ => ⟨"QR.D2", .seq, 262, 391⟩
  | .qrD3 _ => ⟨"QR.D3", .seq, 263, 391⟩
  | .final => ⟨"FINAL", .seq, 384, 384⟩

/-- The table: its rows in the table's order. -/
def opcodeTable : List OpcodeRow :=
  [Instr.row (.init 0 0), Instr.row (.setctr 0), Instr.row .start, Instr.row (.block 0 0 0),
    Instr.row .idle, Instr.row .copy] ++
  [Instr.row (.qrC0 0), Instr.row (.qrC1 0), Instr.row (.qrC2 0), Instr.row (.qrC3 0),
    Instr.row (.qrD0 0), Instr.row (.qrD1 0), Instr.row (.qrD2 0), Instr.row (.qrD3 0),
    Instr.row .final]

/-- Does the word select the row (R63)? -/
def OpcodeRow.selectedBy (r : OpcodeRow) : EncodedWord → Bool
  | .cmd c => r.format = .cmd && (c.op.toNat &&& r.mask) = r.value
  | .seq w => r.format = .seq && (w.toNat &&& r.mask) = r.value

/-! ## A word of the table laid out as bits (log 11) -/

/-- The word of the table whose bits are `w`: one byte holds a `cmd_op` in its two low bits, two bytes
hold an `SW` in their nine low bits, least significant byte first; bits above those are no bits of the
word and must be 0, and a command's operand ports are 0. -/
def tableWord (nbits w : Nat) : Option EncodedWord :=
  if nbits ≤ 8 then
    if w < 4 then some (.cmd ⟨BitVec.ofNat 2 w, 0, 0, 0⟩) else none
  else
    if w < 512 then some (.seq (BitVec.ofNat 9 w)) else none

/-- The instruction the decoder reads from a word of the opcode table, none where it refuses. -/
def decodeTableWord (nbits w : Nat) : Option Instr :=
  match tableWord nbits w with
  | some e =>
    match decode e with
    | .ok i => some i
    | .error _ => none
  | none => none

end Sys2Proof
end

