-- ==== Sys2Proof/Config.lean ====
section
/-!
DEFINITION. What the spec leaves open. Every opaque constant here has no body: no proof can learn its
value, so a claim that mentions one holds whatever the hardware does.
-/

namespace Sys2Proof

/-- What `X`, `W` and `OUT` hold before the first reset (R156). DESIGN CHOICE, log 2. -/
opaque Config.powerOn : DataRegs

/-- What the `n`-th reset leaves in `X[i]`: unspecified (R28, R29, U5). It may depend on what the data
registers held before, since a reset need not erase (R152, U17). DESIGN CHOICE, log 2. -/
opaque Config.afterResetX (n : Nat) (old : DataRegs) (i : Fin 16) : Word

/-- What the `n`-th reset leaves in `W[i]`. DESIGN CHOICE, log 2. -/
opaque Config.afterResetW (n : Nat) (old : DataRegs) (i : Fin 16) : Word

/-- What the `n`-th reset leaves in `OUT[j]`. DESIGN CHOICE, log 2. -/
opaque Config.afterResetOut (n : Nat) (old : DataRegs) (j : Fin 64) : Byte

/-- What the `n`-th reset leaves in the data registers, a free value word by word (log 2). -/
def Config.afterReset (n : Nat) (old : DataRegs) : DataRegs where
  x := Vector.ofFn (Config.afterResetX n old)
  w := Vector.ofFn (Config.afterResetW n old)
  out := Vector.ofFn (Config.afterResetOut n old)

/-- What `out_block` shows at look number `look` while `out_valid = 0`: any value (R30, U7), possibly one
that depends on the data registers. DESIGN CHOICE, log 4. -/
opaque Config.freeOutBlock (look : Nat) (held : DataRegs) : BitVec 512

/-- `T_CMD`, the cycles from a command's acceptance to its update: open, at least 0 (R8, R153). Log 13. -/
opaque Config.tCmd : Nat

/-- The part of `T_STEP` above its least value. Log 13. -/
opaque Config.tStepOverOne : Nat

/-- `T_STEP`, the cycles of one micro-step: open, at least 1, the same for all data (R8, R153, R154). -/
def Config.tStep : Nat := Config.tStepOverOne + 1

/-- How many mixer units may work in parallel inside a pass (R8). -/
inductive MixerUnits where
  | one
  | two
  | four
deriving DecidableEq, Repr, Inhabited

/-- `NUNITS`: open and unobservable (R8, R81, R92). Log 13. -/
opaque Config.nUnits : MixerUnits

end Sys2Proof
end

