-- ==== Sys2Proof/Machine/State.lean ====
section
/-!
DEFINITION. The machine's state, the reasons a step stops, and the state right after reset
(10_state.md).
-/

namespace Sys2Proof.Machine

/-- The architectural state (10_state.md, head), and two fields of the model's own. -/
structure State where
  /-- `X[0..15]`, the original state (R13, R14). -/
  x : Words16
  /-- `W[0..15]`, the working copy (R15). -/
  w : Words16
  /-- `OUT[0..63]`, the last serialised block (R18). -/
  out : OutBytes
  /-- `LOADED` (R19). -/
  loaded : Bool
  /-- `OUT_VALID` (R20). -/
  outValid : Bool
  /-- `SW = (PH, DR, G)`, the sequencer word (R22). -/
  sw : SeqWord
  /-- The model's own: what the host drives on the input ports at the coming events, the next one
  first (R25, R49). When it has run out the ports are quiet. DESIGN CHOICE, log 1. -/
  inputs : List InPorts
  /-- The model's own: how many reset draws have been made (log 3). No claim rests on its value. -/
  draws : Nat
deriving DecidableEq, Repr

/-- The engine raises no exception: "The set of exception causes is empty" (R123). The type has no
constructor, so no step faults (log 20). -/
inductive Fault where
deriving DecidableEq, Repr

/-- Why a step is refused: the closed list of R125, and the host's mark of an instruction that has no
meaning yet. -/
inductive Refusal where
  /-- Raised only by an arm of `exec` for an instruction that has no meaning yet; there is none. Safe. -/
  | notModelled (mnemonic : String)
  /-- Raised by START accepted while `LOADED = 0` (R112, R125, log 5). Safe. -/
  | startBeforeInit
  /-- Raised by an event whose sequencer word is none of the 83 reachable ones (R60, R125, log 6). Safe. -/
  | reservedSequencerWord
deriving DecidableEq, Repr

/-- The machine right after reset (R28): idle, nothing loaded, no valid output; the data registers hold
free values (R29, DESIGN CHOICE, log 2) and no input is waiting (log 1). -/
def State.reset : State where
  x := (Config.afterReset 0 Config.powerOn).x
  w := (Config.afterReset 0 Config.powerOn).w
  out := (Config.afterReset 0 Config.powerOn).out
  loaded := false
  outValid := false
  sw := ⟨.idle, 0, 0⟩
  inputs := []
  draws := 1

end Sys2Proof.Machine
end

