-- ==== Sys2Proof/Machine/Ops.lean ====
section
/-!
DEFINITION. The named operations over the state: byte arrays, register writes, the hold, the reset
event (this engine's only asynchronous event; it has no exception to take, R123, R130), and the output
ports.
-/

namespace Sys2Proof.Machine

/-! ## Byte arrays (20_memory.md) -/

/-- Byte `k` of a word, `v[8k+7:8k]` (R37). -/
def wordByte (v : Word) (k : Nat) : Byte := v.extractLsb' (8 * k) 8

/-- `MemRead(A+off, 4)`: the little-endian word at an offset inside the array (R36, R41). -/
def memRead {n : Nat} (A : Vector Byte n) (off : Nat) (h : off + 4 ≤ n := by omega) : Word :=
  A[off + 3] ++ A[off + 2] ++ A[off + 1] ++ A[off]

/-- `MemWrite(OUT+off, 4, v)`: the four bytes of `v`, least significant first (R37, R41). -/
def memWrite {n : Nat} (A : Vector Byte n) (off : Nat) (v : Word) (h : off + 4 ≤ n := by omega) :
    Vector Byte n :=
  (((A.set off (wordByte v 0)).set (off + 1) (wordByte v 1)).set (off + 2) (wordByte v 2)).set
    (off + 3) (wordByte v 3)

/-! ## Register writes -/

/-- `X <- v`, all 16 words. -/
def State.setX (s : State) (v : Words16) : State := { s with x := v }

/-- `X[12] <- ctr` (R70). -/
def State.setCounter (s : State) (ctr : Word) : State := { s with x := s.x.set 12 ctr }

/-- `W <- v`, all 16 words. -/
def State.setW (s : State) (v : Words16) : State := { s with w := v }

/-- `OUT <- v`, all 64 bytes at once (R18, R42). -/
def State.setOut (s : State) (v : OutBytes) : State := { s with out := v }

/-- `SW <- (p, d, g)`, the advance of the sequencer (R22, R23). -/
def State.setSW (s : State) (ph : Phase) (dr : BitVec 4) (g : BitVec 3) : State :=
  { s with sw := ⟨ph, dr, g⟩ }

/-- The data registers together. -/
def State.dataRegs (s : State) : DataRegs := ⟨s.x, s.w, s.out⟩

/-! ## Input ports -/

/-- Ports on which the host offers nothing: no reset, no command. -/
def quietPorts : InPorts := ⟨false, false, ⟨0, 0, 0, 0⟩⟩

/-- What the input ports carry at the coming event (log 1). -/
def State.portsNow (s : State) : InPorts :=
  match s.inputs with
  | [] => quietPorts
  | p :: _ => p

/-- The state with the coming event's port values taken off the list: they are read only at the event
they belong to (R25). -/
def State.takePorts (s : State) : State := { s with inputs := s.inputs.tail }

/-! ## The hold (R50, R126) -/

/-- A command takes effect when `PH = IDLE`; otherwise it is held, which changes nothing. -/
def whenIdle (s : State) (accepted : Host.Outcome State Fault Refusal) :
    Host.Outcome State Fault Refusal :=
  if s.sw.ph = .idle then accepted else .next s

/-! ## The reset event (R139) -/

/-- `SW <- (IDLE, 0, 0)`, `LOADED <- 0`, `OUT_VALID <- 0`, and `X`, `W`, `OUT` unspecified: a free value
that may depend on what they held (R29, R152, log 2). -/
def resetEvent (s : State) : State :=
  { s with
    x := (Config.afterReset s.draws s.dataRegs).x
    w := (Config.afterReset s.draws s.dataRegs).w
    out := (Config.afterReset s.draws s.dataRegs).out
    loaded := false
    outValid := false
    sw := ⟨.idle, 0, 0⟩
    draws := s.draws + 1 }

/-! ## The output ports (R30, R49) -/

/-- `busy = (PH != IDLE)` (R21, R30). -/
def State.busy (s : State) : Bool := decide (s.sw.ph ≠ .idle)

/-- `cmd_ready = (PH == IDLE)` (R30). -/
def State.cmdReady (s : State) : Bool := decide (s.sw.ph = .idle)

/-- The port `out_valid` (R30). -/
def State.outValidPort (s : State) : Bool := s.outValid

/-- A byte string as one number, byte 0 least significant. -/
def bytesToNat : List Byte → Nat
  | [] => 0
  | b :: t => b.toNat + 256 * bytesToNat t

/-- 64 bytes on the 512-bit port, byte `j` at bits `[8j+7:8j]` (R39). -/
def packBlock (b : OutBytes) : BitVec 512 := BitVec.ofNat 512 (bytesToNat b.toList)

/-- The port `out_block` at look number `look`: the bytes of `OUT` while `OUT_VALID = 1`, otherwise
unspecified, at every look anew (R30, U7, log 4). Looking changes no state (R43). -/
def State.outBlock (s : State) (look : Nat) : BitVec 512 :=
  if s.outValid then packBlock s.out else Config.freeOutBlock look s.dataRegs

end Sys2Proof.Machine
end

