-- ==== Sys2Proof/Machine/Flags.lean ====
section
/-!
DEFINITION. The two status flags and every write to them (R19, R20). There are no condition codes: an
addition that wraps records nothing (R21).
-/

namespace Sys2Proof.Machine

/-- `LOADED <- 1`, by INIT and BLOCK (R19). -/
def State.markLoaded (s : State) : State := { s with loaded := true }

/-- `OUT_VALID <- 0`, by the acceptance of START and BLOCK (R20). -/
def State.clearOutValid (s : State) : State := { s with outValid := false }

/-- `OUT_VALID <- 1`, by FINAL (R20). -/
def State.raiseOutValid (s : State) : State := { s with outValid := true }

end Sys2Proof.Machine
end

