-- ==== Sys2Proof/Machine/Mixer.lean ====
section
/-!
DEFINITION. The ARX round mixer (41_arx_mixer.md): the three primitives, the quarter round on four words
and on a 16-word state.
-/

namespace Sys2Proof.Machine

/-- `ADD32(a, b)`, the sum modulo 2^32 (R75). -/
def add32 (a b : Word) : Word := a + b

/-- `XOR32(a, b)` (R76). -/
def xor32 (a b : Word) : Word := a ^^^ b

/-- `ROTL32(v, n)`, rotation to the left (R77, log 14). -/
def rotl32 (v : Word) (n : Nat) : Word := v.rotateLeft n

/-- `QR4(a, b, c, d)`: the twelve assignments in order (R78). -/
def qr4 (a b c d : Word) : Quad :=
  let a := add32 a b
  let d := xor32 d a
  let d := rotl32 d 16
  let c := add32 c d
  let b := xor32 b c
  let b := rotl32 b 12
  let a := add32 a b
  let d := xor32 d a
  let d := rotl32 d 8
  let c := add32 c d
  let b := xor32 b c
  let b := rotl32 b 7
  ⟨a, b, c, d⟩

/-- Four results written to the four positions of a group. -/
def putQuad (S : Words16) (t : Group) (q : Quad) : Words16 :=
  (((S.set t.a q.a).set t.b q.b).set t.c q.c).set t.d q.d

/-- The quarter round of the four words of a group. -/
def quadAt (S : Words16) (t : Group) : Quad := qr4 S[t.a] S[t.b] S[t.c] S[t.d]

/-- `QRS(S, (ia, ib, ic, id))`: the quarter round at four positions of a state (R80, log 15). -/
def qrs (S : Words16) (t : Group) : Words16 := putQuad S t (quadAt S t)

end Sys2Proof.Machine
end

