-- ==== Sys2Proof/Machine/Finalizer.lean ====
section
/-!
DEFINITION. The finalizer and output serializer (43_finalizer.md) and the micro-operation FINAL.
-/

namespace Sys2Proof.Machine

/-- `FEED(Wv, Xv)`: the word-wise sum, the feed-forward (R103). -/
def feed (Wv Xv : Words16) : Words16 := Vector.ofFn fun i => add32 Wv[i] Xv[i]

/-- `SER(R)`: byte `4i + k` is byte `k` of word `i` (R104). -/
def ser (R : Words16) : OutBytes :=
  Vector.ofFn fun j => wordByte (R[j.val / 4]'(by omega)) (j.val % 4)

/-- The 16 writes `MemWrite(OUT + 4*i, 4, R[i])` one after the other, the loop of R105. -/
def writeWords (B : OutBytes) (R : Words16) : OutBytes :=
  (List.finRange 16).foldl (fun acc i => memWrite acc (4 * i.val) R[i]) B

/-- `FINALIZE(Wv, Xv) = SER(FEED(Wv, Xv))` (R106). -/
def finalize (Wv Xv : Words16) : OutBytes := ser (feed Wv Xv)

/-- FINAL (R105): `OUT <- FINALIZE(W, X)`, `OUT_VALID <- 1`, `SW <- (IDLE, 0, 0)`. -/
def execFinal (s : State) : Host.Outcome State Fault Refusal :=
  .next (((s.setOut (finalize s.w s.x)).raiseOutValid).setSW .idle 0 0)

end Sys2Proof.Machine
end

