-- ==== Sys2Proof/Machine/Operands.lean ====
section
/-!
DEFINITION. Operand assembly: the byte arrays the ports carry (R39), the words decoded from them (R54),
the constant string (R69). There are no immediates and no other operand form (R54).
-/

namespace Sys2Proof.Machine

/-- `KEY[j] = key_in[8j+7:8j]` (R39). -/
def keyBytes (keyIn : BitVec 256) : Vector Byte 32 :=
  Vector.ofFn fun j => keyIn.extractLsb' (8 * j.val) 8

/-- `NONCE[j] = nonce_in[8j+7:8j]` (R39). -/
def nonceBytes (nonceIn : BitVec 96) : Vector Byte 12 :=
  Vector.ofFn fun j => nonceIn.extractLsb' (8 * j.val) 8

/-- The four constant words, "the definition" of the constant (R69, R14). -/
def sigmaWords : Vector Word 4 := #v[0x61707865, 0x3320646e, 0x79622d32, 0x6b206574]

/-- `SIGMA`, the 16 bytes of the constant: the four words taken apart little-endian (R69). -/
def sigma : Vector Byte 16 :=
  Vector.ofFn fun j => wordByte (sigmaWords[j.val / 4]'(by omega)) (j.val % 4)

/-- `k[i] = MemRead(KEY+4*i, 4)` (R54). -/
def keyWord (key : Vector Byte 32) (i : Fin 8) : Word := memRead key (4 * i.val)

/-- `n[i] = MemRead(NONCE+4*i, 4)` (R54). -/
def nonceWord (nonce : Vector Byte 12) (i : Fin 3) : Word := memRead nonce (4 * i.val)

/-- `c[i] = MemRead(SIGMA+4*i, 4)` (R54). -/
def constWord (i : Fin 4) : Word := memRead sigma (4 * i.val)

end Sys2Proof.Machine
end

