-- ==== Sys2Proof/Machine/Initializer.lean ====
section
/-!
DEFINITION. The initializer (40_initializer.md): `INITSTATE` and the commands INIT and SETCTR.
-/

namespace Sys2Proof.Machine

/-- `INITSTATE(key, nonce)` (R68): constants, key words, counter 0, nonce words. -/
def initState (key : Vector Byte 32) (nonce : Vector Byte 12) : Words16 :=
  #v[constWord 0, constWord 1, constWord 2, constWord 3,
    keyWord key 0, keyWord key 1, keyWord key 2, keyWord key 3,
    keyWord key 4, keyWord key 5, keyWord key 6, keyWord key 7,
    0, nonceWord nonce 0, nonceWord nonce 1, nonceWord nonce 2]

/-- INIT (R67): `X <- INITSTATE(key, nonce)`, `LOADED <- 1`; held while busy. -/
def execInit (key : BitVec 256) (nonce : BitVec 96) (s : State) :
    Host.Outcome State Fault Refusal :=
  whenIdle s (.next ((s.setX (initState (keyBytes key) (nonceBytes nonce))).markLoaded))

/-- SETCTR (R70): `X[12] <- ctr`; held while busy. -/
def execSetctr (ctr : BitVec 32) (s : State) : Host.Outcome State Fault Refusal :=
  whenIdle s (.next (s.setCounter ctr))

end Sys2Proof.Machine
end

