-- ==== Sys2Proof/Machine/Schedule.lean ====
section
/-!
DEFINITION. The round schedule as functions (R87 to R92) and the micro-operations IDLE, COPY, QR.C0 to
QR.D3 (R88, R94 to R102).
-/

namespace Sys2Proof.Machine

/-- `GROUP[g]` (R87). -/
def group (g : BitVec 3) : Group :=
  match g.toNat with
  | 0 => ⟨0, 4, 8, 12⟩
  | 1 => ⟨1, 5, 9, 13⟩
  | 2 => ⟨2, 6, 10, 14⟩
  | 3 => ⟨3, 7, 11, 15⟩
  | 4 => ⟨0, 5, 10, 15⟩
  | 5 => ⟨1, 6, 11, 12⟩
  | 6 => ⟨2, 7, 8, 13⟩
  | _ => ⟨3, 4, 9, 14⟩

/-- `DROUND(S)`: the eight groups in increasing order (R89). -/
def dround (S : Words16) : Words16 :=
  let S1 := qrs S (group 0)
  let S2 := qrs S1 (group 1)
  let S3 := qrs S2 (group 2)
  let S4 := qrs S3 (group 3)
  let S5 := qrs S4 (group 4)
  let S6 := qrs S5 (group 5)
  let S7 := qrs S6 (group 6)
  qrs S7 (group 7)

/-- `DROUND` applied `n` times. -/
def drounds : Nat → Words16 → Words16
  | 0, S => S
  | n + 1, S => dround (drounds n S)

/-- `ROUNDS(S)`: ten double rounds, 80 quarter rounds (R90, C1). -/
def rounds (S : Words16) : Words16 := drounds 10 S

/-- The first `n` applications of the schedule: application number `n` uses `GROUP[n mod 8]` (R91). -/
def applications : Nat → Words16 → Words16
  | 0, S => S
  | n + 1, S => qrs (applications n S) (group (BitVec.ofNat 3 n))

/-- A whole pass at once on several mixer units: every group reads the state before the pass (R81, R92). -/
def passAtOnce (S : Words16) (ts : List Group) : Words16 :=
  ts.foldl (fun acc t => putQuad acc t (quadAt S t)) S

/-- The round schedule of an engine that does a whole pass in one step (R92, R153). -/
def roundsByPass : Nat → Words16 → Words16
  | 0, S => S
  | n + 1, S =>
    let C := passAtOnce (roundsByPass n S) [group 0, group 1, group 2, group 3]
    passAtOnce C [group 4, group 5, group 6, group 7]

/-- The work of every QR micro-operation: the quarter round on `W` at a group, and the advance of `SW`. -/
def quarterStep (s : State) (t : Group) (ph : Phase) (dr : BitVec 4) (g : BitVec 3) : State :=
  (s.setW (qrs s.w t)).setSW ph dr g

/-! ## Meanings -/

/-- IDLE (R94): no step; nothing is written. -/
def execIdle (s : State) : Host.Outcome State Fault Refusal := .next s

/-- COPY (R88): `W <- X`, `SW <- (MIX, 0, 0)`. -/
def execCopy (s : State) : Host.Outcome State Fault Refusal :=
  .next ((s.setW s.x).setSW .mix 0 0)

/-- QR.C0 (R95). -/
def execQrC0 (dr : BitVec 4) (s : State) : Host.Outcome State Fault Refusal :=
  .next (quarterStep s ⟨0, 4, 8, 12⟩ .mix dr 1)

/-- QR.C1 (R96). -/
def execQrC1 (dr : BitVec 4) (s : State) : Host.Outcome State Fault Refusal :=
  .next (quarterStep s ⟨1, 5, 9, 13⟩ .mix dr 2)

/-- QR.C2 (R97). -/
def execQrC2 (dr : BitVec 4) (s : State) : Host.Outcome State Fault Refusal :=
  .next (quarterStep s ⟨2, 6, 10, 14⟩ .mix dr 3)

/-- QR.C3 (R98). -/
def execQrC3 (dr : BitVec 4) (s : State) : Host.Outcome State Fault Refusal :=
  .next (quarterStep s ⟨3, 7, 11, 15⟩ .mix dr 4)

/-- QR.D0 (R99). -/
def execQrD0 (dr : BitVec 4) (s : State) : Host.Outcome State Fault Refusal :=
  .next (quarterStep s ⟨0, 5, 10, 15⟩ .mix dr 5)

/-- QR.D1 (R100). -/
def execQrD1 (dr : BitVec 4) (s : State) : Host.Outcome State Fault Refusal :=
  .next (quarterStep s ⟨1, 6, 11, 12⟩ .mix dr 6)

/-- QR.D2 (R101). -/
def execQrD2 (dr : BitVec 4) (s : State) : Host.Outcome State Fault Refusal :=
  .next (quarterStep s ⟨2, 7, 8, 13⟩ .mix dr 7)

/-- QR.D3 (R102): it ends the double round, and the tenth one ends the rounds. -/
def execQrD3 (dr : BitVec 4) (s : State) : Host.Outcome State Fault Refusal :=
  if dr = 9 then .next (quarterStep s ⟨3, 4, 9, 14⟩ .final 0 0)
  else .next (quarterStep s ⟨3, 4, 9, 14⟩ .mix (dr + 1) 0)

end Sys2Proof.Machine
end

