-- ==== Sys2Proof/Machine/BlockEngine.lean ====
section
/-!
DEFINITION. The block engine (44_block_engine.md): `BLOCKFN`, the commands START and BLOCK, and the
time a block takes (R153).
-/

namespace Sys2Proof.Machine

/-- The original state of a block: `INITSTATE(key, nonce)` with word 12 replaced by the counter (R71, R114). -/
def blockState (key : Vector Byte 32) (ctr : Word) (nonce : Vector Byte 12) : Words16 :=
  (initState key nonce).set 12 ctr

/-- `BLOCKFN(key, ctr, nonce)`, the whole block function (R114). -/
def blockFn (key : Vector Byte 32) (ctr : Word) (nonce : Vector Byte 12) : OutBytes :=
  let S := blockState key ctr nonce
  let Wv := rounds S
  finalize Wv S

/-- The start of a block computation: `OUT_VALID <- 0`, `SW <- (COPY, 0, 0)` (R111). -/
def State.beginBlock (s : State) : State := s.clearOutValid.setSW .copy 0 0

/-- START (R111): begin the block of the current `X`; held while busy; refused while `LOADED = 0` (R112). -/
def execStart (s : State) : Host.Outcome State Fault Refusal :=
  whenIdle s (if s.loaded then .next s.beginBlock else .refused .startBeforeInit)

/-- BLOCK (R113): load key, counter and nonce and begin their block; held while busy, never refused. -/
def execBlock (key : BitVec 256) (ctr : BitVec 32) (nonce : BitVec 96) (s : State) :
    Host.Outcome State Fault Refusal :=
  whenIdle s
    (.next (((s.setX (initState (keyBytes key) (nonceBytes nonce))).setCounter ctr).markLoaded.beginBlock))

/-- The micro-steps of one block: 1 COPY, 80 MIX, 1 FINAL (R93, R119). -/
def blockSteps : Nat := 82

/-- The cycles from the acceptance of START or BLOCK to `out_valid = 1` (R153). Timing only: no value, no
event and no order of events depends on it (log 13). -/
def blockCycles : Nat := Config.tCmd + blockSteps * Config.tStep

/-- The same for an engine with four mixer units that does a whole pass in one step (R153). -/
def blockCyclesByPass : Nat := Config.tCmd + (1 + 20 + 1) * Config.tStep

end Sys2Proof.Machine
end

