-- ==== Sys2Proof/Machine/Dispatch.lean ====
section
/-!
DEFINITION. exec: one arm for each constructor of Instr, each one direct call of its meaning.
-/

namespace Sys2Proof.Machine

def exec (i : Instr) (s : State) : Host.Outcome State Fault Refusal :=
  match i with
  | .init key nonce => Sys2Proof.Machine.execInit key nonce s
  | .setctr ctr => Sys2Proof.Machine.execSetctr ctr s
  | .start => Sys2Proof.Machine.execStart s
  | .block key ctr nonce => Sys2Proof.Machine.execBlock key ctr nonce s
  | .idle => Sys2Proof.Machine.execIdle s
  | .copy => Sys2Proof.Machine.execCopy s
  | .qrC0 dr => Sys2Proof.Machine.execQrC0 dr s
  | .qrC1 dr => Sys2Proof.Machine.execQrC1 dr s
  | .qrC2 dr => Sys2Proof.Machine.execQrC2 dr s
  | .qrC3 dr => Sys2Proof.Machine.execQrC3 dr s
  | .qrD0 dr => Sys2Proof.Machine.execQrD0 dr s
  | .qrD1 dr => Sys2Proof.Machine.execQrD1 dr s
  | .qrD2 dr => Sys2Proof.Machine.execQrD2 dr s
  | .qrD3 dr => Sys2Proof.Machine.execQrD3 dr s
  | .final => Sys2Proof.Machine.execFinal s

end Sys2Proof.Machine
end

