-- ==== Sys2Proof/Machine/Event.lean ====
section
/-!
DEFINITION. One event of the engine under given input ports (R9, R129), and where a test word is placed
so that the next event runs it.
-/

namespace Sys2Proof.Machine

/-- What the event decodes: an offered command when `PH = IDLE` (R50), otherwise the sequencer word (R57). -/
def eventWord (p : InPorts) (s : State) : EncodedWord :=
  if s.sw.ph = .idle ∧ p.cmdValid = true then .cmd p.cmd else .seq s.sw.toBits

/-- One event. Reset wins over everything (R129); otherwise the decoded command or micro-operation is
performed; a reserved sequencer word is refused (R60). -/
def event (p : InPorts) (s : State) : Host.Outcome State Fault Refusal :=
  if p.rst then .next (resetEvent s)
  else
    match decode (eventWord p s) with
    | .ok i => exec i s
    | .error .reservedSequencerWord => .refused .reservedSequencerWord

/-- The state in which the very next event runs a word (log 12): a command is offered on the ports of an
idle engine; a sequencer word is put into `SW` and the ports are quiet. -/
def placeWord (s : State) : EncodedWord → State
  | .cmd c => { s with sw := ⟨.idle, 0, 0⟩, inputs := ⟨false, true, c⟩ :: s.inputs }
  | .seq w => { s with sw := SeqWord.ofBits w, inputs := quietPorts :: s.inputs }

/-- `placeWord` of a word of the opcode table; bits that are no word of it place nothing. -/
def placeTableWord (s : State) (nbits w : Nat) : State :=
  match tableWord nbits w with
  | some e => placeWord s e
  | none => s

end Sys2Proof.Machine
end

