-- ==== Sys2Proof/Machine/Step.lean ====
section
/-!
DEFINITION. The step: one event under the port values the coming entry of `inputs` gives (log 1).
-/

namespace Sys2Proof.Machine

/-- One step of the machine (R9). -/
def step (s : State) : Host.Outcome State Fault Refusal := event s.portsNow s.takePorts

/-- The state whose next step runs the instruction with the given table bits (log 12). -/
def State.withFetchWord (s : State) (nbits w : Nat) : State := placeTableWord s nbits w

end Sys2Proof.Machine
end

