-- ==== Sys2Proof/Safety.lean ====
section
/-!
DEFINITION. The terms claims use: runs of events, command traces and their end (R61, R62, R122, R155),
what a state must satisfy in every run from reset (the invariant), and the parts of a state that no data
may steer (R6).
-/

namespace Sys2Proof

/-! ## Words and groups -/

/-- How many quarter rounds are complete at a MIX word (R22, R91). -/
def SeqWord.done (q : SeqWord) : Nat := 8 * q.dr.toNat + q.g.toNat

/-- The micro-steps left before the engine is idle, at a reachable word (R93). -/
def SeqWord.stepsLeft (q : SeqWord) : Nat :=
  match q.ph with
  | .idle => 0
  | .copy => 82
  | .mix => 81 - q.done
  | .final => 1

/-- Four positions with no repeat (R80). -/
def Group.distinct (t : Group) : Bool :=
  decide (t.a ≠ t.b ∧ t.a ≠ t.c ∧ t.a ≠ t.d ∧ t.b ≠ t.c ∧ t.b ≠ t.d ∧ t.c ≠ t.d)

/-- The positions of a group. -/
def Group.positions (t : Group) : List (Fin 16) := [t.a, t.b, t.c, t.d]

/-- Two groups with no position in common (R92). -/
def Group.disjoint (t u : Group) : Bool := t.positions.all fun i => decide (i ∉ u.positions)

end Sys2Proof

namespace Sys2Proof.Machine

/-! ## Runs of events -/

/-- The events under a list of port values, one after the other, up to the first refusal (R45, R127). -/
def runEvents : List InPorts → State → Host.Outcome State Fault Refusal
  | [], s => .next s
  | p :: ps, s =>
    match event p s with
    | .next t => runEvents ps t
    | .fault r => .fault r
    | .refused r => .refused r

/-- No reset falls on any of these events. -/
def noReset (ps : List InPorts) : Bool := ps.all fun p => !p.rst

/-- Ports on which the host offers a command and no reset. -/
def offer (c : CmdWord) : InPorts := ⟨false, true, c⟩

/-- Ports on which the host asserts reset and offers nothing. -/
def resetPorts : InPorts := ⟨true, false, ⟨0, 0, 0, 0⟩⟩

/-- A command is accepted at this event (R50, R129). -/
def accepts (p : InPorts) (s : State) : Bool := !p.rst && p.cmdValid && s.cmdReady

/-! ## Command traces (R61, R62, R122) -/

/-- One line of a command trace. -/
inductive TraceLine where
  /-- `RESET` (R62). -/
  | reset
  /-- `INIT`, `SETCTR`, `START` or `BLOCK` with its operands: wait until `cmd_ready = 1`, then offer it (R61). -/
  | command (c : CmdWord)
  /-- `WAIT`: let the sequencer step until `busy = 0` (R62). -/
  | wait
  /-- `EXPECT busy=...` (R62). -/
  | expectBusy (b : Bool)
  /-- `EXPECT cmd_ready=...` (R62). -/
  | expectCmdReady (b : Bool)
  /-- `EXPECT out_valid=...` (R62). -/
  | expectOutValid (b : Bool)
  /-- `EXPECT out_block=...` (R62). -/
  | expectOutBlock (v : BitVec 512)
deriving DecidableEq, Repr

/-- Quiet events until the engine is idle, at most `n` of them. -/
def waitIdle : Nat → State → Host.Outcome State Fault Refusal
  | 0, s => .next s
  | n + 1, s =>
    if s.sw.ph = .idle then .next s
    else
      match event quietPorts s with
      | .next t => waitIdle n t
      | .fault r => .fault r
      | .refused r => .refused r

/-- What one trace line does. No computation needs more than `blockSteps` steps (R119, log 19). -/
def TraceLine.run (l : TraceLine) (s : State) : Host.Outcome State Fault Refusal :=
  match l with
  | .reset => event resetPorts s
  | .command c =>
    match waitIdle blockSteps s with
    | .next t => event (offer c) t
    | .fault r => .fault r
    | .refused r => .refused r
  | .wait => waitIdle blockSteps s
  | .expectBusy _ => .next s
  | .expectCmdReady _ => .next s
  | .expectOutValid _ => .next s
  | .expectOutBlock _ => .next s

/-- What an `EXPECT` line asks of the state at its point. -/
def TraceLine.met (l : TraceLine) (s : State) : Bool :=
  match l with
  | .expectBusy b => s.busy == b
  | .expectCmdReady b => s.cmdReady == b
  | .expectOutValid b => s.outValidPort == b
  | .expectOutBlock v => s.outValid && packBlock s.out == v
  | .reset => true
  | .command _ => true
  | .wait => true

/-- A trace applied to a state, up to the first refusal (R122, R127). -/
def runTrace : List TraceLine → State → Host.Outcome State Fault Refusal
  | [], s => .next s
  | l :: ls, s =>
    match l.run s with
    | .next t => runTrace ls t
    | .fault r => .fault r
    | .refused r => .refused r

/-- Every `EXPECT` line of the trace holds at its point, and no line is refused. -/
def traceMet : List TraceLine → State → Bool
  | [], _ => true
  | l :: ls, s =>
    l.met s &&
      match l.run s with
      | .next t => traceMet ls t
      | .fault _ => false
      | .refused _ => false

/-- The premise `ResetDone`: the trace begins with a reset event (R155, R156). -/
def resetDone : List TraceLine → Bool
  | .reset :: _ => true
  | _ => false

/-- The premise `NoRefusal`: no line of the trace is refused (R127, R155). -/
def noRefusal (ls : List TraceLine) (s : State) : Bool :=
  match runTrace ls s with
  | .next _ => true
  | .fault _ => false
  | .refused _ => false

/-- The premise `IdleAtEnd` (R122, R155). -/
def idleAtEnd (s : State) : Bool := s.cmdReady

/-! ## The invariant of every run from reset -/

/-- What holds in every state that a run from reset reaches. -/
structure State.Inv (s : State) : Prop where
  /-- `SW` is one of the 83 reachable words (R60). -/
  swReachable : s.sw.reachable = true
  /-- While a block is computed the state is loaded and no output is valid (R19, R20). -/
  busyLoaded : s.busy = true → s.loaded = true ∧ s.outValid = false
  /-- Once loaded, `X` is the original state of some block, so its constant words are the constant's
  (R13, R14, R19, R71). -/
  loadedState : s.loaded = true → ∃ key ctr nonce, s.x = blockState key ctr nonce
  /-- In a MIX phase `W` is the schedule applied to `X` as far as `SW` says (R91, R93). -/
  mixWork : s.sw.ph = .mix → s.w = applications s.sw.done s.x
  /-- Before FINAL, `W` is `ROUNDS(X)` (R93). -/
  finalWork : s.sw.ph = .final → s.w = rounds s.x
  /-- A valid output is a block of the block function (R2, R20). -/
  validBlock : s.outValid = true → ∃ key ctr nonce, s.out = blockFn key ctr nonce

/-! ## Control and data (R6) -/

/-- Two states that agree on everything but the data registers. -/
def sameControl (s t : State) : Prop :=
  s.sw = t.sw ∧ s.loaded = t.loaded ∧ s.outValid = t.outValid ∧ s.inputs = t.inputs ∧
    s.draws = t.draws

/-- Two port values that agree on everything but the operand values. -/
def samePortControl (p q : InPorts) : Prop :=
  p.rst = q.rst ∧ p.cmdValid = q.cmdValid ∧ p.cmd.op = q.cmd.op

/-- Two outcomes of the same kind whose next states agree on control. -/
def sameKind : Host.Outcome State Fault Refusal → Host.Outcome State Fault Refusal → Prop
  | .next s, .next t => sameControl s t
  | .refused r, .refused q => r = q
  | .fault _, .fault _ => True
  | _, _ => False

/-! ## What an instruction changes -/

/-- The host commands, the rows of format CMD (R52). -/
def isCommand : Instr → Bool
  | .init _ _ => true
  | .setctr _ => true
  | .start => true
  | .block _ _ _ => true
  | .idle => false
  | .copy => false
  | .qrC0 _ => false
  | .qrC1 _ => false
  | .qrC2 _ => false
  | .qrC3 _ => false
  | .qrD0 _ => false
  | .qrD1 _ => false
  | .qrD2 _ => false
  | .qrD3 _ => false
  | .final => false

/-- `T` is `S` after a quarter round of the four positions in their roles, every other word as before (R80). -/
def quarterAt (S T : Words16) (a b c d : Fin 16) : Prop :=
  T[a] = (qr4 S[a] S[b] S[c] S[d]).a ∧ T[b] = (qr4 S[a] S[b] S[c] S[d]).b ∧
    T[c] = (qr4 S[a] S[b] S[c] S[d]).c ∧ T[d] = (qr4 S[a] S[b] S[c] S[d]).d ∧
    ∀ j : Fin 16, j ≠ a → j ≠ b → j ≠ c → j ≠ d → T[j] = S[j]

/-- Nothing but `W` and `SW` differs. -/
def onlyWorkAndSW (s t : State) : Prop :=
  t.x = s.x ∧ t.out = s.out ∧ t.loaded = s.loaded ∧ t.outValid = s.outValid ∧
    t.inputs = s.inputs ∧ t.draws = s.draws

/-- A QR micro-operation's whole effect (R95 to R102): the quarter round on `W` at the four positions, the
advance of `SW`, nothing else. -/
def doesQuarterRound (i : Instr) (s : State) (a b c d : Fin 16) (sw : SeqWord) : Prop :=
  ∃ t, exec i s = .next t ∧ quarterAt s.w t.w a b c d ∧ t.sw = sw ∧ onlyWorkAndSW s t

/-- The ports agree wherever the event may look at them: on reset, on the offer, on the code, and on the
operand ports that the code's command uses (R52, R53). -/
def sameUsedPorts (p q : InPorts) : Prop :=
  samePortControl p q ∧
    (p.cmd.op = 0 → p.cmd.key = q.cmd.key ∧ p.cmd.nonce = q.cmd.nonce) ∧
    (p.cmd.op = 1 → p.cmd.ctr = q.cmd.ctr) ∧
    (p.cmd.op = 3 → p.cmd.key = q.cmd.key ∧ p.cmd.nonce = q.cmd.nonce ∧ p.cmd.ctr = q.cmd.ctr)

end Sys2Proof.Machine
end

