-- ==== Sys2Proof/Certificates/Slice0/Obligations.lean ====
section
/-!
DEFINITION. The statements for the provers. Each docstring names the rules of spec/ it rests on.
-/

open Sys2Proof Sys2Proof.Machine

/-! ## Words and their decoding -/

/-- Every well-formed instruction is read back from its own word, each operand at every value (R52, R56,
R57). -/
def Obligations.DecodeOfEncodeIsIdentity : Prop :=
  ∀ i : Instr, i.wf = true → decode (encode i) = .ok i

/-- What decodes is well formed and encodes back: a sequencer word to itself, a command to the same code
and to the same command (R57, R59, R60). That a sequencer word which decodes is its instruction's only word is
the model's choice, log 6: the decoder refuses IDLE, COPY and FINAL with a bit set in DR or G, bits that R57
does not examine. -/
def Obligations.EncodeOfDecodeIsIdentity : Prop :=
  (∀ (w : BitVec 9) (i : Instr), decode (.seq w) = .ok i → i.wf = true ∧ encode i = .seq w) ∧
  (∀ c : CmdWord, (decodeCmd c).wf = true ∧
    ∃ d : CmdWord, encode (decodeCmd c) = .cmd d ∧ d.op = c.op ∧ decodeCmd d = decodeCmd c)

/-- A few words written out from the encodings of R52, R56 and R57, and one that is refused: 101010000, MIX
with DR = 10, a value R60 reserves; that the decoder is where it is refused is the model's choice, log 6. -/
def Obligations.WrittenWordsDecode : Prop :=
  (∀ k n c, decodeCmd ⟨0b00, k, n, c⟩ = .init k n ∧ decodeCmd ⟨0b01, k, n, c⟩ = .setctr c ∧
    decodeCmd ⟨0b10, k, n, c⟩ = .start ∧ decodeCmd ⟨0b11, k, n, c⟩ = .block k c n) ∧
  decode (.seq 0b000000000) = .ok .idle ∧ decode (.seq 0b010000000) = .ok .copy ∧
  decode (.seq 0b100000000) = .ok (.qrC0 0) ∧ decode (.seq 0b100011101) = .ok (.qrD1 3) ∧
  decode (.seq 0b101001111) = .ok (.qrD3 9) ∧ decode (.seq 0b110000000) = .ok .final ∧
  decode (.seq 0b101010000) = .error .reservedSequencerWord

/-- The words that decode are exactly 83: IDLE, COPY and FINAL with `DR = G = 0`, and MIX with `DR` in 0 to
9; a run from reset reaches every one of the 83, no event leads from them to another one, and an event that
steps from another one is refused (R60). That the words which decode are exactly the reachable ones is the
model's choice, log 6: R57 does not examine DR and G of IDLE, COPY and FINAL, and R60 speaks of reachable
words and of steps. -/
def Obligations.ReservedWordsAreUnreachableAndRefused : Prop :=
  (∀ w : BitVec 9, (∃ i, decode (.seq w) = .ok i) ↔
    (w = 0x000 ∨ w = 0x080 ∨ w = 0x180 ∨ (0x100 ≤ w.toNat ∧ w.toNat ≤ 0x14f))) ∧
  ((List.finRange 512).filter fun w =>
    (SeqWord.ofBits (BitVec.ofFin w)).reachable).length = 83 ∧
  (∀ q : SeqWord, q.reachable = true → ∃ ps t, runEvents ps State.reset = .next t ∧ t.sw = q) ∧
  (∀ (p : InPorts) (s t : State), s.sw.reachable = true → event p s = .next t →
    t.sw.reachable = true) ∧
  (∀ (p : InPorts) (s : State), s.sw.reachable = false → s.busy = true → p.rst = false →
    event p s = .refused .reservedSequencerWord)

/-- An event that accepts a command performs, as its whole effect, the command that the sampled code names on
the values sampled from the operand ports it uses; an event looks only at reset, the offer, the code, and
those operand ports, and at an event where no command is accepted only at reset (R53). -/
def Obligations.UnusedPortsAreIgnored : Prop :=
  (∀ (p : InPorts) (s : State), accepts p s = true →
    (p.cmd.op = 0b00 → event p s = exec (.init p.cmd.key p.cmd.nonce) s) ∧
    (p.cmd.op = 0b01 → event p s = exec (.setctr p.cmd.ctr) s) ∧
    (p.cmd.op = 0b10 → event p s = exec .start s) ∧
    (p.cmd.op = 0b11 → event p s = exec (.block p.cmd.key p.cmd.ctr p.cmd.nonce) s)) ∧
  (∀ (p q : InPorts) (s : State), sameUsedPorts p q → event p s = event q s) ∧
  (∀ (p q : InPorts) (s : State), p.rst = q.rst → accepts p s = false → accepts q s = false →
    event p s = event q s)

/-! ## One step -/

/-- A step is one event: reset if the ports ask for it, otherwise exec of what the event's word decodes to,
the port sample taken off `inputs` and nothing else done around it (R9, R57; the list of samples is the
model's own, log 1). -/
def Obligations.StepRunsTheDecodedInstruction : Prop :=
  (∀ (s : State) (i : Instr), s.portsNow.rst = false →
    decode (eventWord s.portsNow s) = .ok i → step s = exec i s.takePorts) ∧
  (∀ s : State, s.portsNow.rst = true → step s = .next (resetEvent s.takePorts)) ∧
  (∀ s : State, s.takePorts.inputs = s.inputs.tail ∧ sameControl { s.takePorts with inputs := s.inputs } s ∧
    s.takePorts.dataRegs = s.dataRegs)

/-- As many steps as `inputs` has samples are the events of those samples in order (R45; the list of samples
is the model's own, log 1). -/
def Obligations.StepsAreTheEventsInOrder : Prop :=
  ∀ (ps rest : List InPorts) (s : State),
    Host.Core.run Sys2Proof.core ps.length { s with inputs := ps ++ rest } =
      runEvents ps { s with inputs := rest }

/-! ## Reset -/

/-- A reset event in any state and any phase leaves an idle engine that is ready, with nothing loaded and no
valid output; the data registers hold a free value (R139, R28, R141; the form of that value is the model's
choice, log 2). -/
def Obligations.ResetEventLeavesIdleEngine : Prop :=
  ∀ (p : InPorts) (s : State), p.rst = true →
    ∃ t, event p s = .next t ∧ t.sw = ⟨.idle, 0, 0⟩ ∧ t.loaded = false ∧ t.outValid = false ∧
      t.busy = false ∧ t.cmdReady = true ∧ t.outValidPort = false ∧
      t.dataRegs = Config.afterReset s.draws s.dataRegs ∧ t.inputs = s.inputs

/-- Reset wins over a command and over a step; a command offered with the FINAL step is not accepted there
but can be at the event after; acceptance and a sequencer step never coincide; no event meets two refusal
conditions (R129). -/
def Obligations.ResetWinsAndEventsNeverCoincide : Prop :=
  (∀ (p q : InPorts) (s : State), p.rst = true → q.rst = true →
    accepts p s = false ∧ event p s = event q s ∧ event p s = .next (resetEvent s)) ∧
  (∀ (p : InPorts) (s : State), s.sw = ⟨.final, 0, 0⟩ → p.rst = false →
    accepts p s = false ∧ ∃ t, event p s = .next t ∧ event quietPorts s = .next t ∧
      ∀ c, accepts (offer c) t = true) ∧
  (∀ (p : InPorts) (s : State), accepts p s = true → s.busy = false) ∧
  (∀ (p : InPorts) (s t : State), accepts p s = false → p.rst = false → event p s = .next t →
    t ≠ s → s.busy = true) ∧
  (∀ (p : InPorts) (s : State),
    (event p s = .refused .startBeforeInit → accepts p s = true) ∧
    (event p s = .refused .reservedSequencerWord → accepts p s = false))

/-! ## The host commands -/

/-- INIT accepted by an idle engine loads key and nonce, zeroes the counter and sets LOADED, whatever
`ctr_in` holds, and writes nothing else; while busy it is held; the rule's two examples (R67). -/
def Obligations.InitLoadsKeyAndNonce : Prop :=
  (∀ (key : BitVec 256) (nonce : BitVec 96) (s : State), s.sw.ph = .idle →
    exec (.init key nonce) s =
      .next { s with x := initState (keyBytes key) (nonceBytes nonce), loaded := true }) ∧
  (∀ key nonce, (initState key nonce)[12] = 0) ∧
  initState (keyBytes 0) (nonceBytes 0) =
    #v[0x61707865, 0x3320646e, 0x79622d32, 0x6b206574, 0, 0, 0, 0, 0, 0, 0, 0, 0, 0, 0, 0] ∧
  initState
      (keyBytes 0x1f1e1d1c1b1a191817161514131211100f0e0d0c0b0a09080706050403020100)
      (nonceBytes 0x000000004a00000009000000) =
    #v[0x61707865, 0x3320646e, 0x79622d32, 0x6b206574, 0x03020100, 0x07060504, 0x0b0a0908,
      0x0f0e0d0c, 0x13121110, 0x17161514, 0x1b1a1918, 0x1f1e1d1c, 0x00000000, 0x09000000,
      0x4a000000, 0x00000000] ∧
  (∀ (key : BitVec 256) (nonce : BitVec 96) (s : State), s.sw.ph ≠ .idle →
    exec (.init key nonce) s = .next s) ∧
  (∀ (key : BitVec 256) (nonce : BitVec 96) (ctr : BitVec 32) (s : State), s.sw.ph = .idle →
    event (offer ⟨0b00, key, nonce, ctr⟩) s = exec (.init key nonce) s)

/-- SETCTR accepted by an idle engine stores the counter in word 12 as given, whatever LOADED is, and writes
nothing else; while busy it is held (R70). -/
def Obligations.SetctrWritesWordTwelve : Prop :=
  (∀ (ctr : BitVec 32) (s : State), s.sw.ph = .idle →
    ∃ t, exec (.setctr ctr) s = .next t ∧ t.x[12] = ctr ∧
      (∀ j : Fin 16, j ≠ 12 → t.x[j] = s.x[j]) ∧ t = { s with x := t.x }) ∧
  (∀ (ctr : BitVec 32) (s : State), s.sw.ph ≠ .idle → exec (.setctr ctr) s = .next s) ∧
  (∀ (key : BitVec 256) (nonce : BitVec 96) (ctr : BitVec 32) (s : State), s.sw.ph = .idle →
    event (offer ⟨0b01, key, nonce, ctr⟩) s = exec (.setctr ctr) s)

/-- START accepted by an idle, loaded engine clears OUT_VALID and sets SW to (COPY, 0, 0), and writes nothing
else; while busy it is held; no operand port matters (R111). -/
def Obligations.StartBeginsTheBlock : Prop :=
  (∀ s : State, s.sw.ph = .idle → s.loaded = true →
    exec .start s = .next { s with outValid := false, sw := ⟨.copy, 0, 0⟩ }) ∧
  (∀ s : State, s.sw.ph ≠ .idle → exec .start s = .next s) ∧
  (∀ (key : BitVec 256) (nonce : BitVec 96) (ctr : BitVec 32) (s : State), s.sw.ph = .idle →
    event (offer ⟨0b10, key, nonce, ctr⟩) s = exec .start s)

/-- START accepted while LOADED = 0 is refused by name (R112). -/
def Obligations.StartBeforeInitIsRefused : Prop :=
  (∀ s : State, s.sw.ph = .idle → s.loaded = false →
    exec .start s = .refused .startBeforeInit) ∧
  (∀ (p : InPorts) (s : State), accepts p s = true → p.cmd.op = 0b10 → s.loaded = false →
    event p s = .refused .startBeforeInit)

/-- BLOCK accepted by an idle engine, for every value of LOADED, loads key, counter and nonce, sets LOADED,
clears OUT_VALID and begins the block; it equals INIT, SETCTR and START with no event between; after 82 more
events without reset OUT is BLOCKFN and valid; while busy it is held (R113). -/
def Obligations.BlockCommandComputesBlockFn : Prop :=
  (∀ (key : BitVec 256) (ctr : BitVec 32) (nonce : BitVec 96) (s : State), s.sw.ph = .idle →
    exec (.block key ctr nonce) s =
      .next { s with
        x := (initState (keyBytes key) (nonceBytes nonce)).set 12 ctr
        loaded := true, outValid := false, sw := ⟨.copy, 0, 0⟩ }) ∧
  (∀ (key : BitVec 256) (ctr : BitVec 32) (nonce : BitVec 96) (s : State), s.sw.ph ≠ .idle →
    exec (.block key ctr nonce) s = .next s) ∧
  (∀ (key : BitVec 256) (nonce : BitVec 96) (ctr : BitVec 32) (a b c : CmdWord) (s : State),
    s.sw.ph = .idle → a = ⟨0b00, key, nonce, a.ctr⟩ → b = ⟨0b01, b.key, b.nonce, ctr⟩ →
    c.op = 0b10 →
    event (offer ⟨0b11, key, nonce, ctr⟩) s = runEvents [offer a, offer b, offer c] s) ∧
  (∀ (key : BitVec 256) (nonce : BitVec 96) (ctr : BitVec 32) (ps : List InPorts) (s : State),
    s.sw.ph = .idle → noReset ps = true → ps.length = 82 →
    ∃ t, runEvents (offer ⟨0b11, key, nonce, ctr⟩ :: ps) s = .next t ∧
      t.out = blockFn (keyBytes key) ctr (nonceBytes nonce) ∧ t.outValid = true)

/-- INIT and SETCTR answer a next state with W, OUT, OUT_VALID and SW as they were: they begin no computation,
and a finished result stays on the ports. In an idle engine they have their effect on X and LOADED at once,
whether a result waits to be read or not (R72, R146). -/
def Obligations.InitAndSetctrKeepTheResult : Prop :=
  ∀ (i : Instr) (s : State) (key : BitVec 256) (nonce : BitVec 96) (ctr : BitVec 32),
    (i = .init key nonce ∨ i = .setctr ctr) →
    ∃ t, exec i s = .next t ∧ t.w = s.w ∧ t.out = s.out ∧ t.outValid = s.outValid ∧ t.sw = s.sw ∧
      (s.outValid = true → ∀ look, t.outBlock look = s.outBlock look) ∧
      (s.sw.ph = .idle →
        (i = .init key nonce → t.x = initState (keyBytes key) (nonceBytes nonce) ∧ t.loaded = true) ∧
        (i = .setctr ctr → t.x = s.x.set 12 ctr ∧ t.loaded = s.loaded))

/-- INIT followed by any number of SETCTR leaves INITSTATE with word 12 replaced by the last counter (R71). -/
def Obligations.LastSetctrWins : Prop :=
  ∀ (key : BitVec 256) (nonce : BitVec 96) (c0 ctr : BitVec 32) (ctrs : List (BitVec 32)) (s : State),
    s.sw.ph = .idle →
    ∃ t, runEvents (offer ⟨0b00, key, nonce, c0⟩ ::
        (ctrs ++ [ctr]).map fun c => offer ⟨0b01, 0, 0, c⟩) s = .next t ∧
      t.x = (initState (keyBytes key) (nonceBytes nonce)).set 12 ctr

/-- INIT accepted after SETCTR loses the counter: word 12 is 0 (R74). -/
def Obligations.InitAfterSetctrLosesTheCounter : Prop :=
  ∀ (key : BitVec 256) (nonce : BitVec 96) (c0 ctr : BitVec 32) (s : State), s.sw.ph = .idle →
    ∃ t, runEvents [offer ⟨0b01, key, nonce, ctr⟩, offer ⟨0b00, key, nonce, c0⟩] s = .next t ∧
      t.x = initState (keyBytes key) (nonceBytes nonce) ∧ t.x[12] = 0

/-! ## The micro-operations -/

/-- IDLE does nothing: with `SW = (IDLE, 0, 0)`, no reset and no accepted command an event changes nothing,
and only in this phase is a command accepted (R94). -/
def Obligations.IdleDoesNothing : Prop :=
  (∀ s : State, exec .idle s = .next s) ∧
  (∀ (p : InPorts) (s : State), s.sw = ⟨.idle, 0, 0⟩ → p.rst = false → accepts p s = false →
    event p s = .next s) ∧
  (∀ (p : InPorts) (s : State), accepts p s = true → s.sw.ph = .idle)

/-- COPY writes all 16 words of X to W, whatever W held, advances SW to (MIX, 0, 0) and writes nothing else;
an event leads to the COPY phase only by accepting START or BLOCK, and then the state is loaded (R88). -/
def Obligations.CopyDuplicatesX : Prop :=
  (∀ s : State, ∃ t, exec .copy s = .next t ∧ (∀ j : Fin 16, t.w[j] = s.x[j]) ∧
    t.sw = ⟨.mix, 0, 0⟩ ∧ onlyWorkAndSW s t ∧
    ∀ W : Words16, exec .copy { s with w := W } = .next t) ∧
  (∀ (p : InPorts) (s t : State), event p s = .next t → t.sw.ph = .copy →
    accepts p s = true ∧ (p.cmd.op = 0b10 ∨ p.cmd.op = 0b11) ∧ t.loaded = true)

/-- QR.C0 to QR.C3, each selected by its G at every legal DR, do the quarter round of W at their column,
advance G, and change nothing else; the rules' examples (R95 to R98). -/
def Obligations.ColumnQuarterRounds : Prop :=
  qr4 0x61707865 0x03020100 0x13121110 0x00000001 =
    ⟨0xabbaa25c, 0x3a465196, 0x6b3ca454, 0xdec62ed2⟩ ∧
  qr4 0x3320646e 0x07060504 0x17161514 0x09000000 =
    ⟨0x1efa51ea, 0x1c7e64f6, 0x08eb14b1, 0x8862cc77⟩ ∧
  qr4 0x79622d32 0x0b0a0908 0x1b1a1918 0x4a000000 =
    ⟨0x7354fbdf, 0xb12fb628, 0xbf8a9ac9, 0x6e35b345⟩ ∧
  qr4 0x6b206574 0x0f0e0d0c 0x1f1e1d1c 0x00000000 =
    ⟨0x83d2dc69, 0xf05b6976, 0xe444df3b, 0x52a647f1⟩ ∧
  ∀ (dr : BitVec 4) (s : State), dr.toNat ≤ 9 →
    (decodeSeq ⟨.mix, dr, 0⟩ = .ok (.qrC0 dr) ∧
      doesQuarterRound (.qrC0 dr) s 0 4 8 12 ⟨.mix, dr, 1⟩) ∧
    (decodeSeq ⟨.mix, dr, 1⟩ = .ok (.qrC1 dr) ∧
      doesQuarterRound (.qrC1 dr) s 1 5 9 13 ⟨.mix, dr, 2⟩) ∧
    (decodeSeq ⟨.mix, dr, 2⟩ = .ok (.qrC2 dr) ∧
      doesQuarterRound (.qrC2 dr) s 2 6 10 14 ⟨.mix, dr, 3⟩) ∧
    (decodeSeq ⟨.mix, dr, 3⟩ = .ok (.qrC3 dr) ∧
      doesQuarterRound (.qrC3 dr) s 3 7 11 15 ⟨.mix, dr, 4⟩)

/-- QR.D0 to QR.D3, each selected by its G at every legal DR, do the quarter round of W at their diagonal,
advance SW (QR.D3 ends the double round, the tenth one the rounds), and change nothing else; the rules'
examples (R99 to R102). -/
def Obligations.DiagonalQuarterRounds : Prop :=
  qr4 0xabbaa25c 0x1c7e64f6 0xbf8a9ac9 0x52a647f1 =
    ⟨0xcd52e917, 0x5c2e187a, 0xf1a1bdf5, 0xf173888d⟩ ∧
  qr4 0x1efa51ea 0xb12fb628 0xe444df3b 0xdec62ed2 =
    ⟨0x85ab03b4, 0xc95eb461, 0x761246ca, 0x6b0d58a3⟩ ∧
  qr4 0x7354fbdf 0xf05b6976 0x6b3ca454 0x8862cc77 =
    ⟨0xb3457395, 0x316c801a, 0x7bf7d740, 0x6798471a⟩ ∧
  qr4 0x83d2dc69 0x3a465196 0x08eb14b1 0x6e35b345 =
    ⟨0xf96de7dd, 0xc4b7cd22, 0x7eddd644, 0xd737f167⟩ ∧
  ∀ (dr : BitVec 4) (s : State), dr.toNat ≤ 9 →
    (decodeSeq ⟨.mix, dr, 4⟩ = .ok (.qrD0 dr) ∧
      doesQuarterRound (.qrD0 dr) s 0 5 10 15 ⟨.mix, dr, 5⟩) ∧
    (decodeSeq ⟨.mix, dr, 5⟩ = .ok (.qrD1 dr) ∧
      doesQuarterRound (.qrD1 dr) s 1 6 11 12 ⟨.mix, dr, 6⟩) ∧
    (decodeSeq ⟨.mix, dr, 6⟩ = .ok (.qrD2 dr) ∧
      doesQuarterRound (.qrD2 dr) s 2 7 8 13 ⟨.mix, dr, 7⟩) ∧
    (decodeSeq ⟨.mix, dr, 7⟩ = .ok (.qrD3 dr) ∧
      doesQuarterRound (.qrD3 dr) s 3 4 9 14
        (if dr ≠ 9 then ⟨.mix, dr + 1, 0⟩ else ⟨.final, 0, 0⟩))

/-- FINAL writes every byte of OUT with the sum of W and X, whatever OUT held, by the loop of 16 MemWrites,
sets OUT_VALID, returns to IDLE so that busy falls and cmd_ready rises, and writes nothing else (R105). -/
def Obligations.FinalSerialisesTheSum : Prop :=
  ∀ s : State, ∃ t, exec .final s = .next t ∧
    (∀ (i : Fin 16) (k : Fin 4), t.out[4 * i.val + k.val] =
      (s.w[i] + s.x[i]).extractLsb' (8 * k.val) 8) ∧
    t.out = writeWords s.out (feed s.w s.x) ∧ t.out = finalize s.w s.x ∧
    t.outValid = true ∧ t.sw = ⟨.idle, 0, 0⟩ ∧ t.busy = false ∧ t.cmdReady = true ∧
    t.x = s.x ∧ t.w = s.w ∧ t.loaded = s.loaded ∧ t.inputs = s.inputs ∧ t.draws = s.draws

/-! ## Frames over all instructions -/

/-- No micro-operation writes X or LOADED; only FINAL writes OUT and OUT_VALID; IDLE and FINAL leave W; none
touches the waiting inputs (R16, R18, R19, R20, R73). -/
def Obligations.MicroOperationFrame : Prop :=
  ∀ (i : Instr) (s t : State), isCommand i = false → exec i s = .next t →
    t.x = s.x ∧ t.loaded = s.loaded ∧ t.inputs = s.inputs ∧ t.draws = s.draws ∧
    (i ≠ .final → t.out = s.out ∧ t.outValid = s.outValid) ∧
    ((i = .idle ∨ i = .final) → t.w = s.w) ∧ (i = .idle → t = s)

/-- No command writes W or any byte of OUT; START leaves X and LOADED; SETCTR leaves LOADED and every word of
X but word 12; INIT and SETCTR leave OUT_VALID and SW (R16, R18, R19, R20, R72). -/
def Obligations.CommandFrame : Prop :=
  ∀ (i : Instr) (s t : State), isCommand i = true → exec i s = .next t →
    t.w = s.w ∧ t.out = s.out ∧ t.inputs = s.inputs ∧ t.draws = s.draws ∧
    (i = .start → t.x = s.x ∧ t.loaded = s.loaded) ∧
    (∀ ctr, i = .setctr ctr → t.loaded = s.loaded ∧ ∀ j : Fin 16, j ≠ 12 → t.x[j] = s.x[j]) ∧
    (∀ ctr, i = .setctr ctr → t.outValid = s.outValid ∧ t.sw = s.sw) ∧
    (∀ key nonce, i = .init key nonce → t.outValid = s.outValid ∧ t.sw = s.sw)

/-! ## The sequencer -/

/-- The sequencer step, case by case of PH; from (COPY, 0, 0) exactly 82 events without reset lead to IDLE,
with the engine busy before each of them (R93). -/
def Obligations.SequencerStep : Prop :=
  (∀ (p : InPorts) (s : State), p.rst = false → s.sw = ⟨.copy, 0, 0⟩ →
    event p s = .next { s with w := s.x, sw := ⟨.mix, 0, 0⟩ }) ∧
  (∀ (p : InPorts) (s : State), p.rst = false → s.sw.ph = .mix → s.sw.dr.toNat ≤ 9 →
    event p s = .next { s with
      w := qrs s.w (group s.sw.g)
      sw := if s.sw.g ≠ 7 then ⟨.mix, s.sw.dr, s.sw.g + 1⟩
        else if s.sw.dr ≠ 9 then ⟨.mix, s.sw.dr + 1, 0⟩ else ⟨.final, 0, 0⟩ }) ∧
  (∀ (p : InPorts) (s : State), p.rst = false → s.sw = ⟨.final, 0, 0⟩ →
    event p s = .next { s with
      out := ser (feed s.w s.x), outValid := true, sw := ⟨.idle, 0, 0⟩ }) ∧
  (∀ (p : InPorts) (s : State), p.rst = false → s.sw = ⟨.idle, 0, 0⟩ → p.cmdValid = false →
    event p s = .next s) ∧
  (∀ (ps : List InPorts) (s : State), s.sw = ⟨.copy, 0, 0⟩ → noReset ps = true → ps.length = 82 →
    (∀ k, k < 82 → ∃ u, runEvents (ps.take k) s = .next u ∧ u.busy = true) ∧
    ∃ t, runEvents ps s = .next t ∧ t.sw = ⟨.idle, 0, 0⟩)

/-- SW advances only as stated: reset, acceptance and the steps each set it to constants of its own fields,
nothing else moves it (R23). -/
def Obligations.SequencerWordAdvancesOnlyAsStated : Prop :=
  ∀ (p : InPorts) (s t : State), event p s = .next t →
    t.sw =
      if p.rst then ⟨.idle, 0, 0⟩
      else if accepts p s then
        (if p.cmd.op = 0b10 ∨ p.cmd.op = 0b11 then ⟨.copy, 0, 0⟩ else s.sw)
      else
        match s.sw.ph with
        | .idle => s.sw
        | .copy => ⟨.mix, 0, 0⟩
        | .mix =>
          if s.sw.g ≠ 7 then ⟨.mix, s.sw.dr, s.sw.g + 1⟩
          else if s.sw.dr ≠ 9 then ⟨.mix, s.sw.dr + 1, 0⟩ else ⟨.final, 0, 0⟩
        | .final => ⟨.idle, 0, 0⟩

/-- The values SW takes in a block computation, by number and whatever the data: 0x080, then 0x100 to 0x14f,
then 0x180, then 0 (R23, R119). -/
def Obligations.SequencerWordSequenceIsFixed : Prop :=
  ∀ (ps : List InPorts) (s : State), s.sw = ⟨.copy, 0, 0⟩ → noReset ps = true → ps.length ≤ 82 →
    ∃ t, runEvents ps s = .next t ∧
      t.sw.toBits.toNat =
        if ps.length = 0 then 0x080
        else if ps.length ≤ 80 then 0xff + ps.length
        else if ps.length = 81 then 0x180 else 0

/-- A block computation as one transition: from the acceptance of START in a loaded engine, or of BLOCK, 82
events without reset end idle with the block of the X at acceptance; X is kept, W is ROUNDS(X), LOADED is 1;
before that no command is accepted and the ports show busy and no valid output (R115). -/
def Obligations.BlockComputationBigStep : Prop :=
  ∀ (p : InPorts) (ps : List InPorts) (s u : State), accepts p s = true →
    (p.cmd.op = 0b10 ∧ s.loaded = true ∨ p.cmd.op = 0b11) → event p s = .next u →
    noReset ps = true → ps.length = 82 →
    (p.cmd.op = 0b10 → u.x = s.x) ∧
    (∀ k, k < 82 → ∃ v, runEvents (ps.take k) u = .next v ∧ v.busy = true ∧ v.outValidPort = false ∧
      ∀ q, accepts q v = false) ∧
    ∃ t, runEvents ps u = .next t ∧ t.sw.ph = .idle ∧ t.outValid = true ∧
      t.out = finalize (rounds u.x) u.x ∧ t.x = u.x ∧ t.w = rounds u.x ∧ t.loaded = true

/-- From every reachable word, the engine is idle after as many events without reset as it has steps left,
at most 82, and busy before (R150, R126). -/
def Obligations.SequencerAlwaysReachesIdle : Prop :=
  ∀ (ps : List InPorts) (s : State), s.sw.reachable = true → noReset ps = true →
    ps.length = s.sw.stepsLeft →
    ps.length ≤ 82 ∧
    (∀ k, k < ps.length → ∃ u, runEvents (ps.take k) s = .next u ∧ u.busy = true) ∧
    ∃ t, runEvents ps s = .next t ∧ t.sw = ⟨.idle, 0, 0⟩ ∧ (s.busy = true → t.outValid = true)

/-! ## Whole-machine rules -/

/-- A command is accepted exactly where one is offered to an idle engine without reset; while busy, and
where none is offered, the event is that of quiet ports; only FINAL or reset ends the busy phase, and
each of them does (R50). -/
def Obligations.HeldCommandsHaveNoEffect : Prop :=
  (∀ (p : InPorts) (s : State), accepts p s = true ↔
    p.rst = false ∧ p.cmdValid = true ∧ s.sw.ph = .idle) ∧
  (∀ (p : InPorts) (s : State), s.busy = true → p.rst = false → event p s = event quietPorts s) ∧
  (∀ (p : InPorts) (s : State), p.cmdValid = false → p.rst = false →
    event p s = event quietPorts s) ∧
  (∀ (i : Instr) (s : State), isCommand i = true → s.busy = true → exec i s = .next s) ∧
  (∀ (p : InPorts) (s t : State), s.busy = true → event p s = .next t → t.busy = false →
    p.rst = true ∨ s.sw.ph = .final) ∧
  (∀ (p : InPorts) (s : State), (p.rst = true ∨ s.sw = ⟨.final, 0, 0⟩) →
    ∃ t, event p s = .next t ∧ t.sw.ph = .idle)

/-- While a block is computed no event but reset changes X (R17). -/
def Obligations.XIsFixedWhileBusy : Prop :=
  (∀ (p : InPorts) (s t : State), s.busy = true → p.rst = false → event p s = .next t → t.x = s.x) ∧
  (∀ (ps : List InPorts) (s t : State), noReset ps = true →
    (∀ k, k < ps.length → ∃ u, runEvents (ps.take k) s = .next u ∧ u.busy = true) →
    runEvents ps s = .next t → t.x = s.x)

/-- X changes only at a reset and at the acceptance of INIT, SETCTR or BLOCK; the engine never changes the
counter by itself (R16, R73). -/
def Obligations.OnlyCommandsAndResetWriteX : Prop :=
  ∀ (p : InPorts) (s t : State), event p s = .next t → p.rst = false →
    (accepts p s = false ∨ p.cmd.op = 0b10) → t.x = s.x

/-- LOADED is set by the acceptance of INIT and of BLOCK, cleared by reset, and written by nothing else
(R19). -/
def Obligations.LoadedFollowsInitAndBlock : Prop :=
  ∀ (p : InPorts) (s t : State), event p s = .next t →
    t.loaded =
      if p.rst then false
      else if accepts p s && (p.cmd.op == 0b00 || p.cmd.op == 0b11) then true else s.loaded

/-- OUT_VALID is cleared by reset and by the acceptance of START and of BLOCK, set by FINAL, and written by
nothing else; without reset only FINAL writes OUT (R18, R20). -/
def Obligations.OutValidFollowsTheBlock : Prop :=
  ∀ (p : InPorts) (s t : State), event p s = .next t →
    (t.outValid =
      if p.rst then false
      else if accepts p s && (p.cmd.op == 0b10 || p.cmd.op == 0b11) then false
      else if s.sw.ph = .final then true else s.outValid) ∧
    (p.rst = false → s.sw.ph ≠ .final → t.out = s.out)

/-- No data value steers the engine: two states that agree on all but X, W and OUT, under ports that agree on
all but the operand values, answer alike and with the same control state (R6, R82). -/
def Obligations.DataNeverSteersControl : Prop :=
  ∀ (p q : InPorts) (s t : State), samePortControl p q → sameControl s t →
    sameKind (event p s) (event q t)

/-- What W held before a COPY influences nothing: two runs from states that differ only in W, at least one
event long, meet in the same outcome (R27). -/
def Obligations.EarlierWorkingStateInfluencesNothing : Prop :=
  ∀ (p : InPorts) (ps : List InPorts) (s : State) (W : Words16), s.sw = ⟨.copy, 0, 0⟩ →
    p.rst = false → runEvents (p :: ps) s = runEvents (p :: ps) { s with w := W }

/-- Determinism and purity: two block computations of the same X, or of the same BLOCK operands, give the
same output on the port at every look, whatever W, OUT, the flags and the other ports were (R116). -/
def Obligations.OutputIsAFunctionOfTheInputs : Prop :=
  ∀ (p q : InPorts) (ps qs : List InPorts) (s t : State),
    accepts p s = true → accepts q t = true →
    (p.cmd.op = 0b10 ∧ q.cmd.op = 0b10 ∧ s.loaded = true ∧ t.loaded = true ∧ s.x = t.x ∨
      p.cmd.op = 0b11 ∧ sameUsedPorts p q) →
    noReset ps = true → noReset qs = true → ps.length = 82 → qs.length = 82 →
    ∃ u v, runEvents (p :: ps) s = .next u ∧ runEvents (q :: qs) t = .next v ∧ u.out = v.out ∧
      ∀ look look', u.outBlock look = v.outBlock look'

/-- From a reset in any state: INIT, SETCTR and START, with any number of quiet events between, and 82 events
without reset, show BLOCKFN(key, ctr, nonce) as valid on an idle engine (R142, R155). -/
def Obligations.InitSetctrStartDeliversBlockFn : Prop :=
  ∀ (key : BitVec 256) (nonce : BitVec 96) (ctr : BitVec 32) (r : InPorts) (ps : List InPorts)
    (l m n : Nat) (s : State), r.rst = true → noReset ps = true → ps.length = 82 →
    ∃ t, runEvents (r :: List.replicate l quietPorts ++ offer ⟨0b00, key, nonce, 0⟩ ::
        List.replicate m quietPorts ++ offer ⟨0b01, 0, 0, ctr⟩ ::
        List.replicate n quietPorts ++ offer ⟨0b10, 0, 0, 0⟩ :: ps) s = .next t ∧
      t.busy = false ∧ t.outValidPort = true ∧
      ∀ look, t.outBlock look = packBlock (blockFn (keyBytes key) ctr (nonceBytes nonce))

/-- The next block of the same key and nonce needs only SETCTR and START, and gives what BLOCK gives; the
other words of X survive (R118). -/
def Obligations.StateIsReusedAcrossBlocks : Prop :=
  ∀ (key : Vector Byte 32) (nonce : Vector Byte 12) (c0 ctr : Word) (ps : List InPorts) (s : State),
    s.sw.ph = .idle → s.loaded = true → s.x = blockState key c0 nonce →
    noReset ps = true → ps.length = 82 →
    ∃ t, runEvents (offer ⟨0b01, 0, 0, ctr⟩ :: offer ⟨0b10, 0, 0, 0⟩ :: ps) s = .next t ∧
      t.out = blockFn key ctr nonce ∧ t.x = blockState key ctr nonce ∧
      ∀ j : Fin 16, j ≠ 12 → t.x[j] = s.x[j]

/-- A trace's WAIT ends idle from every reachable word, and a command line's offer is always accepted (R61,
R62, R126). -/
def Obligations.TraceLinesAreServed : Prop :=
  ∀ (s : State), s.sw.reachable = true →
    ∃ t, TraceLine.run .wait s = .next t ∧ t.sw = ⟨.idle, 0, 0⟩ ∧ t.x = s.x ∧
      ∀ c, accepts (offer c) t = true ∧ TraceLine.run (.command c) s = exec (decodeCmd c) t

/-! ## The invariant -/

/-- The state after reset meets the invariant (R28). -/
def Obligations.ResetMeetsTheInvariant : Prop := State.reset.Inv

/-- Every step keeps the invariant: SW reachable; busy means loaded with no valid output; a loaded X is the
original state of a block; W is the schedule applied as far as SW says; a valid OUT is a block of the block
function (R2, R13, R17, R19, R20, R60, R91, R93). -/
def Obligations.StepKeepsTheInvariant : Prop :=
  ∀ s t : State, s.Inv → step s = .next t → t.Inv

/-- In a state that meets the invariant a step answers a next state, but for a START accepted while
LOADED = 0, which is refused (R125). -/
def Obligations.OnlyStartBeforeInitIsRefused : Prop :=
  ∀ s : State, s.Inv →
    (∃ t, step s = .next t) ∨
    (step s = .refused .startBeforeInit ∧ accepts s.portsNow s = true ∧ s.portsNow.cmd.op = 0b10 ∧
      s.loaded = false)

/-- In a state that meets the invariant, once LOADED is 1 words 0 to 3 of X are the four constant words (R13,
R14). -/
def Obligations.ConstantWordsStayOnceLoaded : Prop :=
  ∀ s : State, s.Inv → s.loaded = true →
    s.x[0] = 0x61707865 ∧ s.x[1] = 0x3320646e ∧ s.x[2] = 0x79622d32 ∧ s.x[3] = 0x6b206574

/-! ## The functions -/

/-- ADD32 is the sum modulo 2^32, commutative and associative with 0 neutral; XOR32 is the bitwise
exclusive or (R75, R76). -/
def Obligations.AddAndXorAreModularAndBitwise : Prop :=
  (∀ a b : Word, (add32 a b).toNat = (a.toNat + b.toNat) % 2 ^ 32 ∧ add32 a b = add32 b a ∧
    add32 a 0 = a) ∧
  (∀ a b c : Word, add32 (add32 a b) c = add32 a (add32 b c)) ∧
  add32 0xFFFFFFFF 1 = 0 ∧ add32 0x80000000 0x80000000 = 0 ∧
  add32 0x516461b1 0x2a5f714c = 0x7bc3d2fd ∧
  (∀ (a b : Word) (i : Nat), i < 32 →
    ((xor32 a b).getLsbD i = true ↔ a.getLsbD i ≠ b.getLsbD i)) ∧
  (∀ a : Word, xor32 a a = 0 ∧ xor32 a 0 = a) ∧
  xor32 0x3d631689 0x7bc3d2fd = 0x46a0c474

/-- ROTL32 by n in 1 to 31 moves bit i to bit (i + n) mod 32, and is the formula of the rule; the rule's
examples. The definition is the one the spec marks "[from general knowledge, not in source]" (R77, log 14). -/
def Obligations.RotateMovesEveryBitLeft : Prop :=
  rotl32 0x12345678 16 = 0x56781234 ∧ rotl32 0x12345678 12 = 0x45678123 ∧
  rotl32 0x12345678 8 = 0x34567812 ∧ rotl32 0x12345678 7 = 0x1a2b3c09 ∧
  rotl32 0x80000000 1 = 0x00000001 ∧ rotl32 0x46a0c474 16 = 0xc47446a0 ∧
  ∀ (v : Word) (n : Nat), 1 ≤ n → n ≤ 31 →
    (∀ i, i < 32 → (rotl32 v n).getLsbD ((i + n) % 32) = v.getLsbD i) ∧
    (rotl32 v n).toNat = (v.toNat * 2 ^ n) % 2 ^ 32 + v.toNat / 2 ^ (32 - n)

/-- QRS at four distinct positions writes there the quarter round of what stood there, in their roles, and
leaves every other word; the rule's example (R80). -/
def Obligations.QuarterRoundTouchesOnlyItsGroup : Prop :=
  (∀ (S : Words16) (t : Group), t.distinct = true → quarterAt S (qrs S t) t.a t.b t.c t.d) ∧
  qrs #v[0x879531e0, 0xc5ecf37d, 0x516461b1, 0xc9a62f8a, 0x44c20ef3, 0x3390af7f, 0xd9fc690b,
      0x2a5f714c, 0x53372767, 0xb00a5631, 0x974c541a, 0x359e9963, 0x5c971061, 0x3d631689,
      0x2098d9d6, 0x91dbd320] ⟨2, 7, 8, 13⟩ =
    #v[0x879531e0, 0xc5ecf37d, 0xbdb886dc, 0xc9a62f8a, 0x44c20ef3, 0x3390af7f, 0xd9fc690b,
      0xcfacafd2, 0xe46bea80, 0xb00a5631, 0x974c541a, 0x359e9963, 0x5c971061, 0xccc07c79,
      0x2098d9d6, 0x91dbd320]

/-- The quarter round on four words, QRS at a group with distinct positions, and ROUNDS are bijections (R117). -/
def Obligations.RoundsIsABijection : Prop :=
  Function.Bijective (fun q : Quad => qr4 q.a q.b q.c q.d) ∧
  (∀ t : Group, t.distinct = true → Function.Bijective fun S : Words16 => qrs S t) ∧
  Function.Bijective rounds

/-- Quarter rounds of groups with no common position commute, so a pass in any order, and a whole pass done
at once, give the same state as the listed order (R92). -/
def Obligations.GroupsOfAPassCommute : Prop :=
  (∀ (S : Words16) (t u : Group), t.distinct = true → u.distinct = true → t.disjoint u = true →
    qrs (qrs S t) u = qrs (qrs S u) t) ∧
  (∀ g h : BitVec 3, g ≠ h → g.toNat / 4 = h.toNat / 4 → (group g).disjoint (group h) = true) ∧
  (∀ (n : Nat) (S : Words16), roundsByPass n S = drounds n S)

/-- ROUNDS is 80 applications of the quarter round, number n with GROUP[n mod 8], eight to a double round
(R90, R91). -/
def Obligations.RoundsAreEightyApplications : Prop :=
  (∀ S : Words16, rounds S =
    (List.range 80).foldl (fun T n => qrs T (group (BitVec.ofNat 3 (n % 8)))) S) ∧
  (∀ (k : Nat) (S : Words16), applications (8 * k) S = drounds k S) ∧
  (∀ S : Words16, applications 80 S = rounds S)

/-- FEED adds word by word modulo 2^32, all 16 positions alike, with no carry between words: two pairs of
states that agree at a position give the same sum there (R103). -/
def Obligations.FeedForwardAddsWordByWord : Prop :=
  (∀ (W X : Words16) (i : Fin 16), (feed W X)[i] = add32 W[i] X[i] ∧
    (feed W X)[i].toNat = (W[i].toNat + X[i].toNat) % 2 ^ 32) ∧
  (∀ (W X V Y : Words16) (i : Fin 16), W[i] = V[i] → X[i] = Y[i] → (feed W X)[i] = (feed V Y)[i])

/-- FINALIZE is SER of FEED, does not depend on the order of its arguments, and for a fixed original state is
a bijection from working states to blocks, as SER is from word states; inferences the spec marks as its own
(R104, R106). -/
def Obligations.FinalizeIsABijection : Prop :=
  (∀ W X : Words16, finalize W X = ser (feed W X) ∧ finalize W X = finalize X W) ∧
  Function.Bijective ser ∧ (∀ X : Words16, Function.Bijective fun W => finalize W X)

/-- SER writes byte k of word i at 4i + k, and equals 16 MemWrites over any old bytes (R104). -/
def Obligations.SerialiserIsLittleEndian : Prop :=
  (∀ (R : Words16) (i : Fin 16) (k : Fin 4),
    (ser R)[4 * i.val + k.val] = R[i].extractLsb' (8 * k.val) 8) ∧
  (∀ (R : Words16) (B : OutBytes), writeWords B R = ser R) ∧
  (∀ R : Words16, (ser R)[0] = R[0].extractLsb' 0 8 ∧ (ser R)[63] = R[15].extractLsb' 24 8)

/-- MemRead is the little-endian sum of its four bytes; MemWrite writes the four bytes of the word, least
significant first, and no other byte; a read of what was written gives it back; the rules' examples (R36,
R37). -/
def Obligations.MemoryAccessIsLittleEndian : Prop :=
  (∀ (n : Nat) (A : Vector Byte n) (off : Nat) (h : off + 4 ≤ n),
    (memRead A off h).toNat =
      A[off].toNat + 2 ^ 8 * A[off + 1].toNat + 2 ^ 16 * A[off + 2].toNat + 2 ^ 24 * A[off + 3].toNat) ∧
  (∀ (n : Nat) (A : Vector Byte n) (off : Nat) (v : Word) (h : off + 4 ≤ n),
    (memWrite A off v h)[off] = v.extractLsb' 0 8 ∧ (memWrite A off v h)[off + 1] = v.extractLsb' 8 8 ∧
    (memWrite A off v h)[off + 2] = v.extractLsb' 16 8 ∧
    (memWrite A off v h)[off + 3] = v.extractLsb' 24 8 ∧
    (∀ (j : Nat) (hj : j < n), j < off ∨ off + 4 ≤ j → (memWrite A off v h)[j] = A[j]) ∧
    memRead (memWrite A off v h) off h = v) ∧
  memRead (#v[0x00, 0x01, 0x02, 0x03, 0x04, 0x05, 0x06, 0x07] : Vector Byte 8) 4 = 0x07060504 ∧
  memWrite (Vector.replicate 4 (0 : Byte)) 0 0xe4e7f110 = #v[0x10, 0xf1, 0xe7, 0xe4]

/-- INITSTATE lays out constants, key words, counter 0 and nonce words, each a MemRead at 4i (R68). -/
def Obligations.InitStateLayout : Prop :=
  ∀ (key : Vector Byte 32) (nonce : Vector Byte 12),
    (∀ i : Fin 4, (initState key nonce)[i.val] = memRead sigma (4 * i.val)) ∧
    (∀ i : Fin 8, (initState key nonce)[4 + i.val] = memRead key (4 * i.val)) ∧
    (initState key nonce)[12] = 0 ∧
    (∀ i : Fin 3, (initState key nonce)[13 + i.val] = memRead nonce (4 * i.val))

/-- The words a command decodes are slices of its ports, and the constant's are the four literal words (R40,
R54, R69). -/
def Obligations.OperandWordsArePortSlices : Prop :=
  (∀ (k : BitVec 256) (i : Fin 8), keyWord (keyBytes k) i = k.extractLsb' (32 * i.val) 32) ∧
  (∀ (n : BitVec 96) (i : Fin 3), nonceWord (nonceBytes n) i = n.extractLsb' (32 * i.val) 32) ∧
  (∀ i : Fin 4, constWord i = sigmaWords[i]) ∧
  (∀ (k : BitVec 256) (j : Fin 32), (keyBytes k)[j] = k.extractLsb' (8 * j.val) 8) ∧
  (∀ (n : BitVec 96) (j : Fin 12), (nonceBytes n)[j] = n.extractLsb' (8 * j.val) 8)

/-- The output ports are functions of the state; while OUT_VALID = 1 byte j of OUT is bits [8j+7:8j] of
out_block at every look (R30). -/
def Obligations.OutputPortsShowTheState : Prop :=
  ∀ s : State, (s.busy = true ↔ s.sw.ph ≠ .idle) ∧ (s.cmdReady = true ↔ s.sw.ph = .idle) ∧
    s.outValidPort = s.outValid ∧
    (s.outValid = true → ∀ (look : Nat) (j : Fin 64),
      (s.outBlock look).extractLsb' (8 * j.val) 8 = s.out[j])

/-- After FINAL result word i stands at bits [32i+31:32i] of out_block (R55). -/
def Obligations.ResultWordsArePortSlices : Prop :=
  ∀ s : State, ∃ t, exec .final s = .next t ∧ ∀ (look : Nat) (i : Fin 16),
    (t.outBlock look).extractLsb' (32 * i.val) 32 = (feed s.w s.x)[i]
end

