-- ==== Sys2Proof/Laws/State.lean ====
section
/-!
SUPPORT. One lemma for each field of the state under each named update, each true by rfl, and the port
list's small lemmas, so that no proof unfolds a record update.
-/

namespace Sys2Proof.Machine

variable (s : State)

/-! ## setX -/

@[simp] theorem setX_x (v : Words16) : (s.setX v).x = v := rfl
@[simp] theorem setX_w (v : Words16) : (s.setX v).w = s.w := rfl
@[simp] theorem setX_out (v : Words16) : (s.setX v).out = s.out := rfl
@[simp] theorem setX_loaded (v : Words16) : (s.setX v).loaded = s.loaded := rfl
@[simp] theorem setX_outValid (v : Words16) : (s.setX v).outValid = s.outValid := rfl
@[simp] theorem setX_sw (v : Words16) : (s.setX v).sw = s.sw := rfl
@[simp] theorem setX_inputs (v : Words16) : (s.setX v).inputs = s.inputs := rfl
@[simp] theorem setX_draws (v : Words16) : (s.setX v).draws = s.draws := rfl

/-! ## setCounter -/

@[simp] theorem setCounter_x (ctr : Word) : (s.setCounter ctr).x = s.x.set 12 ctr := rfl
@[simp] theorem setCounter_w (ctr : Word) : (s.setCounter ctr).w = s.w := rfl
@[simp] theorem setCounter_out (ctr : Word) : (s.setCounter ctr).out = s.out := rfl
@[simp] theorem setCounter_loaded (ctr : Word) : (s.setCounter ctr).loaded = s.loaded := rfl
@[simp] theorem setCounter_outValid (ctr : Word) : (s.setCounter ctr).outValid = s.outValid := rfl
@[simp] theorem setCounter_sw (ctr : Word) : (s.setCounter ctr).sw = s.sw := rfl
@[simp] theorem setCounter_inputs (ctr : Word) : (s.setCounter ctr).inputs = s.inputs := rfl
@[simp] theorem setCounter_draws (ctr : Word) : (s.setCounter ctr).draws = s.draws := rfl

/-! ## setW -/

@[simp] theorem setW_x (v : Words16) : (s.setW v).x = s.x := rfl
@[simp] theorem setW_w (v : Words16) : (s.setW v).w = v := rfl
@[simp] theorem setW_out (v : Words16) : (s.setW v).out = s.out := rfl
@[simp] theorem setW_loaded (v : Words16) : (s.setW v).loaded = s.loaded := rfl
@[simp] theorem setW_outValid (v : Words16) : (s.setW v).outValid = s.outValid := rfl
@[simp] theorem setW_sw (v : Words16) : (s.setW v).sw = s.sw := rfl
@[simp] theorem setW_inputs (v : Words16) : (s.setW v).inputs = s.inputs := rfl
@[simp] theorem setW_draws (v : Words16) : (s.setW v).draws = s.draws := rfl

/-! ## setOut -/

@[simp] theorem setOut_x (v : OutBytes) : (s.setOut v).x = s.x := rfl
@[simp] theorem setOut_w (v : OutBytes) : (s.setOut v).w = s.w := rfl
@[simp] theorem setOut_out (v : OutBytes) : (s.setOut v).out = v := rfl
@[simp] theorem setOut_loaded (v : OutBytes) : (s.setOut v).loaded = s.loaded := rfl
@[simp] theorem setOut_outValid (v : OutBytes) : (s.setOut v).outValid = s.outValid := rfl
@[simp] theorem setOut_sw (v : OutBytes) : (s.setOut v).sw = s.sw := rfl
@[simp] theorem setOut_inputs (v : OutBytes) : (s.setOut v).inputs = s.inputs := rfl
@[simp] theorem setOut_draws (v : OutBytes) : (s.setOut v).draws = s.draws := rfl

/-! ## setSW -/

@[simp] theorem setSW_x (ph : Phase) (dr : BitVec 4) (g : BitVec 3) : (s.setSW ph dr g).x = s.x := rfl
@[simp] theorem setSW_w (ph : Phase) (dr : BitVec 4) (g : BitVec 3) : (s.setSW ph dr g).w = s.w := rfl
@[simp] theorem setSW_out (ph : Phase) (dr : BitVec 4) (g : BitVec 3) : (s.setSW ph dr g).out = s.out := rfl
@[simp] theorem setSW_loaded (ph : Phase) (dr : BitVec 4) (g : BitVec 3) : (s.setSW ph dr g).loaded = s.loaded := rfl
@[simp] theorem setSW_outValid (ph : Phase) (dr : BitVec 4) (g : BitVec 3) : (s.setSW ph dr g).outValid = s.outValid := rfl
@[simp] theorem setSW_sw (ph : Phase) (dr : BitVec 4) (g : BitVec 3) : (s.setSW ph dr g).sw = ⟨ph, dr, g⟩ := rfl
@[simp] theorem setSW_inputs (ph : Phase) (dr : BitVec 4) (g : BitVec 3) : (s.setSW ph dr g).inputs = s.inputs := rfl
@[simp] theorem setSW_draws (ph : Phase) (dr : BitVec 4) (g : BitVec 3) : (s.setSW ph dr g).draws = s.draws := rfl

/-! ## takePorts -/

@[simp] theorem takePorts_x : (s.takePorts).x = s.x := rfl
@[simp] theorem takePorts_w : (s.takePorts).w = s.w := rfl
@[simp] theorem takePorts_out : (s.takePorts).out = s.out := rfl
@[simp] theorem takePorts_loaded : (s.takePorts).loaded = s.loaded := rfl
@[simp] theorem takePorts_outValid : (s.takePorts).outValid = s.outValid := rfl
@[simp] theorem takePorts_sw : (s.takePorts).sw = s.sw := rfl
@[simp] theorem takePorts_inputs : (s.takePorts).inputs = s.inputs.tail := rfl
@[simp] theorem takePorts_draws : (s.takePorts).draws = s.draws := rfl

/-! ## markLoaded -/

@[simp] theorem markLoaded_x : (s.markLoaded).x = s.x := rfl
@[simp] theorem markLoaded_w : (s.markLoaded).w = s.w := rfl
@[simp] theorem markLoaded_out : (s.markLoaded).out = s.out := rfl
@[simp] theorem markLoaded_loaded : (s.markLoaded).loaded = true := rfl
@[simp] theorem markLoaded_outValid : (s.markLoaded).outValid = s.outValid := rfl
@[simp] theorem markLoaded_sw : (s.markLoaded).sw = s.sw := rfl
@[simp] theorem markLoaded_inputs : (s.markLoaded).inputs = s.inputs := rfl
@[simp] theorem markLoaded_draws : (s.markLoaded).draws = s.draws := rfl

/-! ## clearOutValid -/

@[simp] theorem clearOutValid_x : (s.clearOutValid).x = s.x := rfl
@[simp] theorem clearOutValid_w : (s.clearOutValid).w = s.w := rfl
@[simp] theorem clearOutValid_out : (s.clearOutValid).out = s.out := rfl
@[simp] theorem clearOutValid_loaded : (s.clearOutValid).loaded = s.loaded := rfl
@[simp] theorem clearOutValid_outValid : (s.clearOutValid).outValid = false := rfl
@[simp] theorem clearOutValid_sw : (s.clearOutValid).sw = s.sw := rfl
@[simp] theorem clearOutValid_inputs : (s.clearOutValid).inputs = s.inputs := rfl
@[simp] theorem clearOutValid_draws : (s.clearOutValid).draws = s.draws := rfl

/-! ## raiseOutValid -/

@[simp] theorem raiseOutValid_x : (s.raiseOutValid).x = s.x := rfl
@[simp] theorem raiseOutValid_w : (s.raiseOutValid).w = s.w := rfl
@[simp] theorem raiseOutValid_out : (s.raiseOutValid).out = s.out := rfl
@[simp] theorem raiseOutValid_loaded : (s.raiseOutValid).loaded = s.loaded := rfl
@[simp] theorem raiseOutValid_outValid : (s.raiseOutValid).outValid = true := rfl
@[simp] theorem raiseOutValid_sw : (s.raiseOutValid).sw = s.sw := rfl
@[simp] theorem raiseOutValid_inputs : (s.raiseOutValid).inputs = s.inputs := rfl
@[simp] theorem raiseOutValid_draws : (s.raiseOutValid).draws = s.draws := rfl

/-! ## beginBlock -/

@[simp] theorem beginBlock_x : (s.beginBlock).x = s.x := rfl
@[simp] theorem beginBlock_w : (s.beginBlock).w = s.w := rfl
@[simp] theorem beginBlock_out : (s.beginBlock).out = s.out := rfl
@[simp] theorem beginBlock_loaded : (s.beginBlock).loaded = s.loaded := rfl
@[simp] theorem beginBlock_outValid : (s.beginBlock).outValid = false := rfl
@[simp] theorem beginBlock_sw : (s.beginBlock).sw = ⟨.copy, 0, 0⟩ := rfl
@[simp] theorem beginBlock_inputs : (s.beginBlock).inputs = s.inputs := rfl
@[simp] theorem beginBlock_draws : (s.beginBlock).draws = s.draws := rfl

/-! ## quarterStep -/

@[simp] theorem quarterStep_x (t : Group) (ph : Phase) (dr : BitVec 4) (g : BitVec 3) : (quarterStep s t ph dr g).x = s.x := rfl
@[simp] theorem quarterStep_w (t : Group) (ph : Phase) (dr : BitVec 4) (g : BitVec 3) : (quarterStep s t ph dr g).w = qrs s.w t := rfl
@[simp] theorem quarterStep_out (t : Group) (ph : Phase) (dr : BitVec 4) (g : BitVec 3) : (quarterStep s t ph dr g).out = s.out := rfl
@[simp] theorem quarterStep_loaded (t : Group) (ph : Phase) (dr : BitVec 4) (g : BitVec 3) : (quarterStep s t ph dr g).loaded = s.loaded := rfl
@[simp] theorem quarterStep_outValid (t : Group) (ph : Phase) (dr : BitVec 4) (g : BitVec 3) : (quarterStep s t ph dr g).outValid = s.outValid := rfl
@[simp] theorem quarterStep_sw (t : Group) (ph : Phase) (dr : BitVec 4) (g : BitVec 3) : (quarterStep s t ph dr g).sw = ⟨ph, dr, g⟩ := rfl
@[simp] theorem quarterStep_inputs (t : Group) (ph : Phase) (dr : BitVec 4) (g : BitVec 3) : (quarterStep s t ph dr g).inputs = s.inputs := rfl
@[simp] theorem quarterStep_draws (t : Group) (ph : Phase) (dr : BitVec 4) (g : BitVec 3) : (quarterStep s t ph dr g).draws = s.draws := rfl

/-! ## resetEvent -/

@[simp] theorem resetEvent_x : (resetEvent s).x = (Config.afterReset s.draws s.dataRegs).x := rfl
@[simp] theorem resetEvent_w : (resetEvent s).w = (Config.afterReset s.draws s.dataRegs).w := rfl
@[simp] theorem resetEvent_out : (resetEvent s).out = (Config.afterReset s.draws s.dataRegs).out := rfl
@[simp] theorem resetEvent_loaded : (resetEvent s).loaded = false := rfl
@[simp] theorem resetEvent_outValid : (resetEvent s).outValid = false := rfl
@[simp] theorem resetEvent_sw : (resetEvent s).sw = ⟨.idle, 0, 0⟩ := rfl
@[simp] theorem resetEvent_inputs : (resetEvent s).inputs = s.inputs := rfl
@[simp] theorem resetEvent_draws : (resetEvent s).draws = s.draws + 1 := rfl

/-! ## The port list -/

@[simp] theorem portsNow_nil : ({ s with inputs := [] } : State).portsNow = quietPorts := rfl

@[simp] theorem portsNow_cons (p : InPorts) (ps : List InPorts) :
    ({ s with inputs := p :: ps } : State).portsNow = p := rfl

@[simp] theorem takePorts_cons (p : InPorts) (ps : List InPorts) :
    ({ s with inputs := p :: ps } : State).takePorts = { s with inputs := ps } := rfl

@[simp] theorem quietPorts_rst : quietPorts.rst = false := rfl

@[simp] theorem quietPorts_cmdValid : quietPorts.cmdValid = false := rfl

@[simp] theorem offer_rst (c : CmdWord) : (offer c).rst = false := rfl

@[simp] theorem offer_cmdValid (c : CmdWord) : (offer c).cmdValid = true := rfl

@[simp] theorem offer_cmd (c : CmdWord) : (offer c).cmd = c := rfl

@[simp] theorem resetPorts_rst : resetPorts.rst = true := rfl

/-! ## Status (R21, R30) -/

@[simp] theorem busy_eq_true : s.busy = true ↔ s.sw.ph ≠ .idle := by simp [State.busy]

@[simp] theorem busy_eq_false : s.busy = false ↔ s.sw.ph = .idle := by simp [State.busy]

@[simp] theorem cmdReady_eq_true : s.cmdReady = true ↔ s.sw.ph = .idle := by simp [State.cmdReady]

@[simp] theorem cmdReady_eq_false : s.cmdReady = false ↔ s.sw.ph ≠ .idle := by simp [State.cmdReady]

/-- The state after reset is what the reset event leaves (R28, R139). -/
theorem reset_eq_resetEvent (p : State) (hx : p.dataRegs = Config.powerOn) (hd : p.draws = 0)
    (hi : p.inputs = []) : resetEvent p = State.reset := by
  simp [resetEvent, State.reset, hx, hd, hi]

end Sys2Proof.Machine
end

