-- ==== Sys2Proof/Laws/Bytes.lean ====
section
/-!
SUPPORT. Bytes of words and numbers of byte strings: what the shared byte operations do.
-/

namespace Sys2Proof.Machine

/-- The bytes of four bytes put together are those bytes, the last one least significant (R36, R37). -/
theorem wordByte_append (d c b a : Byte) :
    wordByte (d ++ c ++ b ++ a) 0 = a ∧ wordByte (d ++ c ++ b ++ a) 1 = b ∧
      wordByte (d ++ c ++ b ++ a) 2 = c ∧ wordByte (d ++ c ++ b ++ a) 3 = d := by
  refine ⟨?_, ?_, ?_, ?_⟩ <;> ext i hi <;>
    simp only [wordByte, BitVec.getElem_extractLsb', BitVec.getLsbD_append]
  · simp [hi]
  · simp [show ¬ (8 + i < 8) by omega, hi]
  · simp [show ¬ (16 + i < 8) by omega, show ¬ (16 + i - 8 < 8) by omega,
      show (16 + i - 8 - 8 = i) by omega, hi]
  · simp [show ¬ (24 + i < 8) by omega, show ¬ (24 + i - 8 < 8) by omega,
      show ¬ (24 + i - 8 - 8 < 8) by omega, show (24 + i - 8 - 8 - 8 = i) by omega, hi]

/-- The number of four bytes put together (R36). -/
theorem toNat_append4 (d c b a : Byte) :
    (d ++ c ++ b ++ a).toNat =
      a.toNat + 2 ^ 8 * b.toNat + 2 ^ 16 * c.toNat + 2 ^ 24 * d.toNat := by
  simp only [BitVec.toNat_append]
  have := a.isLt
  have := b.isLt
  have := c.isLt
  rw [← Nat.shiftLeft_add_eq_or_of_lt (by omega), ← Nat.shiftLeft_add_eq_or_of_lt (by omega),
    ← Nat.shiftLeft_add_eq_or_of_lt (by omega)]
  simp only [Nat.shiftLeft_eq]
  omega

/-- A word is its four bytes put together. -/
theorem append_wordByte (v : Word) :
    wordByte v 3 ++ wordByte v 2 ++ wordByte v 1 ++ wordByte v 0 = v := by
  apply BitVec.eq_of_toNat_eq
  rw [toNat_append4]
  simp only [wordByte, BitVec.extractLsb'_toNat, Nat.shiftRight_eq_div_pow]
  have := v.isLt
  omega

/-- `n` bytes are a number below `256^n`. -/
theorem bytesToNat_lt (l : List Byte) : bytesToNat l < 256 ^ l.length := by
  induction l with
  | nil => simp [bytesToNat]
  | cons b l ih =>
    have := b.isLt
    simp only [bytesToNat, List.length_cons, Nat.pow_succ]
    omega

/-- Digit `j` to base 256 of a byte string's number is its byte `j`. -/
theorem bytesToNat_digit (l : List Byte) (j : Nat) (hj : j < l.length) :
    bytesToNat l / 256 ^ j % 256 = l[j].toNat := by
  induction l generalizing j with
  | nil => simp at hj
  | cons b l ih =>
    have := b.isLt
    cases j with
    | zero => simp [bytesToNat]; omega
    | succ j =>
      have h : bytesToNat (b :: l) / 256 ^ (j + 1) = bytesToNat l / 256 ^ j := by
        rw [Nat.pow_succ, Nat.mul_comm, ← Nat.div_div_eq_div_mul]
        congr 1
        simp only [bytesToNat]
        omega
      rw [h, ih j (by simpa using hj)]
      simp

/-- What a byte of an array is after a MemWrite at a word's place (R34, R37). -/
theorem memWrite_getElem (A : OutBytes) (i : Fin 16) (v : Word) (j : Nat) (hj : j < 64) :
    (memWrite A (4 * i.val) v)[j] = if j / 4 = i.val then wordByte v (j % 4) else A[j] := by
  simp only [memWrite, Vector.getElem_set]
  split
  · rename_i h; subst h; rw [if_pos (by omega), show (4 * i.val + 3) % 4 = 3 by omega]
  split
  · rename_i h; subst h; rw [if_pos (by omega), show (4 * i.val + 2) % 4 = 2 by omega]
  split
  · rename_i h; subst h; rw [if_pos (by omega), show (4 * i.val + 1) % 4 = 1 by omega]
  split
  · rename_i h; subst h; rw [if_pos (by omega), show (4 * i.val) % 4 = 0 by omega]
  · rw [if_neg (by omega)]

end Sys2Proof.Machine
end

