-- ==== Sys2Proof/Laws/Decode.lean ====
section
/-!
SUPPORT. The sequencer word's bits and fields, and what a decoded word can be.
-/

namespace Sys2Proof

@[simp] theorem Phase.ofBits_toBits (p : Phase) : Phase.ofBits p.toBits = p := by
  cases p <;> rfl

/-- The fields of the bits of a sequencer word are its fields (R22, R56). -/
@[simp] theorem SeqWord.ofBits_toBits (q : SeqWord) : SeqWord.ofBits q.toBits = q := by
  obtain ⟨p, d, g⟩ := q
  revert g
  revert d
  cases p <;> decide

/-- The bits of the fields of a 9-bit word are the word. -/
@[simp] theorem SeqWord.toBits_ofBits (w : BitVec 9) : (SeqWord.ofBits w).toBits = w := by
  revert w
  decide

@[simp] theorem decode_cmd (c : CmdWord) : decode (.cmd c) = .ok (decodeCmd c) := rfl

@[simp] theorem decode_seq_toBits (q : SeqWord) : decode (.seq q.toBits) = decodeSeq q := by
  simp [decode]

/-- A sequencer word that is not reserved decodes by its phase (R57, R60). -/
theorem decodeSeq_reachable {q : SeqWord} (h : q.reachable = true) :
    decodeSeq q =
      .ok (match q.ph with
        | .idle => .idle
        | .copy => .copy
        | .mix => decodeMix q.g q.dr
        | .final => .final) := by
  unfold decodeSeq
  rw [if_pos h]
  cases q.ph <;> rfl

/-- A reserved word is refused by name (R60). -/
theorem decodeSeq_reserved {q : SeqWord} (h : q.reachable = false) :
    decodeSeq q = .error .reservedSequencerWord := by
  simp [decodeSeq, h]

/-- Outside MIX a reachable word has `DR = 0` and `G = 0` (R60). -/
theorem SeqWord.eq_of_reachable {q : SeqWord} (h : q.reachable = true) (hp : q.ph ≠ .mix) :
    q = ⟨q.ph, 0, 0⟩ := by
  obtain ⟨p, d, g⟩ := q
  cases p <;> simp_all [SeqWord.reachable]

/-- In MIX a reachable word has `DR` at most 9 (R60). -/
theorem SeqWord.dr_le_of_reachable {q : SeqWord} (h : q.reachable = true) (hp : q.ph = .mix) :
    q.dr.toNat ≤ 9 := by
  obtain ⟨p, d, g⟩ := q
  subst hp
  simpa [SeqWord.reachable, drLegal] using h

end Sys2Proof
end

