-- ==== Sys2Proof/Laws/Event.lean ====
section
/-!
SUPPORT. What one event can do: one lemma for the hold, one for each kind of event, and the inversion
that lists every way an event answers a next state.
-/

namespace Sys2Proof.Machine

/-! ## The hold (R50) -/

theorem whenIdle_idle {s : State} (h : s.sw.ph = .idle) (r : Host.Outcome State Fault Refusal) :
    whenIdle s r = r := by simp [whenIdle, h]

theorem whenIdle_busy {s : State} (h : s.sw.ph ≠ .idle) (r : Host.Outcome State Fault Refusal) :
    whenIdle s r = .next s := by simp [whenIdle, h]

/-! ## The sequencer's advance (R93) -/

/-- Where a MIX step leaves the sequencer word (R93). -/
def mixAdvance (q : SeqWord) : SeqWord :=
  if q.g ≠ 7 then ⟨.mix, q.dr, q.g + 1⟩
  else if q.dr ≠ 9 then ⟨.mix, q.dr + 1, 0⟩
  else ⟨.final, 0, 0⟩

/-- The QR micro-operation that `G` selects does the quarter round of `GROUP[G]` and the advance of R93. -/
theorem exec_decodeMix (s : State) (g : BitVec 3) (dr : BitVec 4) :
    exec (decodeMix g dr) s =
      .next { s with w := qrs s.w (group g), sw := mixAdvance ⟨.mix, dr, g⟩ } := by
  obtain ⟨n, hn⟩ : ∃ n : Fin 8, g = BitVec.ofFin n := ⟨g.toFin, rfl⟩
  subst hn
  fin_cases n
  on_goal 8 =>
    by_cases h : dr = 9#4
    · subst h; rfl
    · simp [decodeMix, exec, execQrD3, mixAdvance, h, quarterStep, State.setW, State.setSW, group]
  all_goals rfl

/-! ## The kinds of event -/

theorem event_reset {p : InPorts} (s : State) (h : p.rst = true) :
    event p s = .next (resetEvent s) := by simp [event, h]

theorem event_command {p : InPorts} {s : State} (hr : p.rst = false) (hv : p.cmdValid = true)
    (hi : s.sw.ph = .idle) : event p s = exec (decodeCmd p.cmd) s := by
  simp [event, eventWord, hr, hv, hi]

/-- Without reset and without an accepted command, an event decodes the sequencer word (R57). -/
theorem event_sequencer {p : InPorts} {s : State} (hr : p.rst = false)
    (hn : ¬(s.sw.ph = .idle ∧ p.cmdValid = true)) :
    event p s =
      match decodeSeq s.sw with
      | .ok i => exec i s
      | .error .reservedSequencerWord => .refused .reservedSequencerWord := by
  simp only [event, eventWord, hr, if_neg hn, decode_seq_toBits]
  rfl

theorem event_idle {p : InPorts} {s : State} (hr : p.rst = false) (hv : p.cmdValid = false)
    (hs : s.sw = ⟨.idle, 0, 0⟩) : event p s = .next s := by
  rw [event_sequencer hr (by simp [hv]), hs]
  rfl

theorem event_copy {p : InPorts} {s : State} (hr : p.rst = false) (hs : s.sw = ⟨.copy, 0, 0⟩) :
    event p s = .next { s with w := s.x, sw := ⟨.mix, 0, 0⟩ } := by
  rw [event_sequencer hr (by simp [hs]), hs]
  rfl

theorem event_mix {p : InPorts} {s : State} (hr : p.rst = false) (hp : s.sw.ph = .mix)
    (hd : s.sw.dr.toNat ≤ 9) :
    event p s = .next { s with w := qrs s.w (group s.sw.g), sw := mixAdvance s.sw } := by
  have h : s.sw.reachable = true := by
    simp [SeqWord.reachable, hp, drLegal, hd]
  rw [event_sequencer hr (by simp [hp]), decodeSeq_reachable h, hp]
  simp only [exec_decodeMix]
  rw [← hp]

theorem event_final {p : InPorts} {s : State} (hr : p.rst = false) (hs : s.sw = ⟨.final, 0, 0⟩) :
    event p s =
      .next { s with out := finalize s.w s.x, outValid := true, sw := ⟨.idle, 0, 0⟩ } := by
  rw [event_sequencer hr (by simp [hs]), decodeSeq_reachable (by rw [hs]; decide), hs]
  simp only [exec, execFinal, State.setOut, State.raiseOutValid, State.setSW]

theorem event_reserved {p : InPorts} {s : State} (hr : p.rst = false)
    (hn : ¬(s.sw.ph = .idle ∧ p.cmdValid = true)) (h : s.sw.reachable = false) :
    event p s = .refused .reservedSequencerWord := by
  rw [event_sequencer hr hn, decodeSeq_reserved h]

/-- Every way an event answers a next state. -/
theorem event_next_cases {p : InPorts} {s t : State} (h : event p s = .next t) :
    (p.rst = true ∧ t = resetEvent s) ∨
    (p.rst = false ∧ p.cmdValid = true ∧ s.sw.ph = .idle ∧ exec (decodeCmd p.cmd) s = .next t) ∨
    (p.rst = false ∧ p.cmdValid = false ∧ s.sw = ⟨.idle, 0, 0⟩ ∧ t = s) ∨
    (p.rst = false ∧ s.sw = ⟨.copy, 0, 0⟩ ∧ t = { s with w := s.x, sw := ⟨.mix, 0, 0⟩ }) ∨
    (p.rst = false ∧ s.sw.ph = .mix ∧ s.sw.dr.toNat ≤ 9 ∧
      t = { s with w := qrs s.w (group s.sw.g), sw := mixAdvance s.sw }) ∨
    (p.rst = false ∧ s.sw = ⟨.final, 0, 0⟩ ∧
      t = { s with out := finalize s.w s.x, outValid := true, sw := ⟨.idle, 0, 0⟩ }) := by
  by_cases hr : p.rst = true
  · rw [event_reset s hr] at h
    exact .inl ⟨hr, by cases h; rfl⟩
  have hr' : p.rst = false := by simpa using hr
  by_cases hc : s.sw.ph = .idle ∧ p.cmdValid = true
  · rw [event_command hr' hc.2 hc.1] at h
    exact .inr (.inl ⟨hr', hc.2, hc.1, h⟩)
  by_cases hq : s.sw.reachable = true
  · cases hp : s.sw.ph with
    | idle =>
      have hs : s.sw = ⟨.idle, 0, 0⟩ := by
        have := SeqWord.eq_of_reachable hq (by simp [hp]); rwa [hp] at this
      have hv : p.cmdValid = false := by simpa [hp] using hc
      rw [event_idle hr' hv hs] at h
      exact .inr (.inr (.inl ⟨hr', hv, hs, by cases h; rfl⟩))
    | copy =>
      have hs : s.sw = ⟨.copy, 0, 0⟩ := by
        have := SeqWord.eq_of_reachable hq (by simp [hp]); rwa [hp] at this
      rw [event_copy hr' hs] at h
      exact .inr (.inr (.inr (.inl ⟨hr', hs, by cases h; rfl⟩)))
    | mix =>
      have hd := SeqWord.dr_le_of_reachable hq hp
      rw [event_mix hr' hp hd] at h
      exact .inr (.inr (.inr (.inr (.inl ⟨hr', rfl, hd, by cases h; rfl⟩))))
    | final =>
      have hs : s.sw = ⟨.final, 0, 0⟩ := by
        have := SeqWord.eq_of_reachable hq (by simp [hp]); rwa [hp] at this
      rw [event_final hr' hs] at h
      exact .inr (.inr (.inr (.inr (.inr ⟨hr', hs, by cases h; rfl⟩))))
  · rw [event_reserved hr' hc (by simpa using hq)] at h
    cases h

/-! ## Acceptance (R50, R52) -/

theorem accepts_iff {p : InPorts} {s : State} :
    accepts p s = true ↔ p.rst = false ∧ p.cmdValid = true ∧ s.sw.ph = .idle := by
  simp [accepts, and_assoc]

theorem op_cases (o : BitVec 2) : o = 0b00 ∨ o = 0b01 ∨ o = 0b10 ∨ o = 0b11 := by
  revert o
  decide

theorem decodeCmd_init {c : CmdWord} (h : c.op = 0b00) : decodeCmd c = .init c.key c.nonce := by
  obtain ⟨o, _, _, _⟩ := c
  subst h
  rfl

theorem decodeCmd_setctr {c : CmdWord} (h : c.op = 0b01) : decodeCmd c = .setctr c.ctr := by
  obtain ⟨o, _, _, _⟩ := c
  subst h
  rfl

theorem decodeCmd_start {c : CmdWord} (h : c.op = 0b10) : decodeCmd c = .start := by
  obtain ⟨o, _, _, _⟩ := c
  subst h
  rfl

theorem decodeCmd_block {c : CmdWord} (h : c.op = 0b11) :
    decodeCmd c = .block c.key c.ctr c.nonce := by
  obtain ⟨o, _, _, _⟩ := c
  subst h
  rfl

/-! ## The waiting inputs -/

/-- No event reads or writes the waiting inputs (log 1). -/
theorem event_inputs (p : InPorts) (s : State) (l : List InPorts) :
    event p { s with inputs := l } =
      match event p s with
      | .next t => .next { t with inputs := l }
      | .fault r => .fault r
      | .refused r => .refused r := by
  by_cases hr : p.rst = true
  · rw [event_reset _ hr, event_reset _ hr]; rfl
  have hw : eventWord p { s with inputs := l } = eventWord p s := rfl
  simp only [event, hr, hw]
  cases decode (eventWord p s) with
  | error e => cases e; rfl
  | ok i =>
    cases i <;>
      simp only [exec, execInit, execSetctr, execStart, execBlock, execIdle, execCopy, execQrC0,
        execQrC1, execQrC2, execQrC3, execQrD0, execQrD1, execQrD2, execQrD3, execFinal,
        whenIdle] <;>
      (repeat' split) <;> simp_all [State.beginBlock, State.clearOutValid, State.setSW] <;>
      (try (rename_i h; cases h; rfl)) <;> (subst_vars; simp_all)

/-! ## Runs -/

@[simp] theorem runEvents_nil (s : State) : runEvents [] s = .next s := rfl

theorem runEvents_cons {p : InPorts} {ps : List InPorts} {s t : State} (h : event p s = .next t) :
    runEvents (p :: ps) s = runEvents ps t := by simp [runEvents, h]

theorem runEvents_append {ps qs : List InPorts} {s t : State} (h : runEvents ps s = .next t) :
    runEvents (ps ++ qs) s = runEvents qs t := by
  induction ps generalizing s with
  | nil => simp only [runEvents_nil] at h; cases h; rfl
  | cons p ps ih =>
    simp only [List.cons_append, runEvents] at h ⊢
    cases he : event p s with
    | next u => simp only [he] at h ⊢; exact ih h
    | fault r => cases r
    | refused r => simp [he] at h

end Sys2Proof.Machine
end

