-- ==== Sys2Proof/Laws/Mixer.lean ====
section
/-!
SUPPORT. What the mixer's shared operations read and write: the four positions of a group, and nothing
else.
-/

namespace Sys2Proof.Machine

/-- Two states are equal when their words are. -/
theorem words16_ext {S T : Words16} (h : ∀ j : Fin 16, S[j] = T[j]) : S = T := by
  ext i hi : 1
  exact h ⟨i, hi⟩

/-- Every word after a group's four results are written; of repeated positions the last one counts (log 15). -/
theorem putQuad_getElem (S : Words16) (t : Group) (q : Quad) (j : Fin 16) :
    (putQuad S t q)[j] =
      if j = t.d then q.d else if j = t.c then q.c else if j = t.b then q.b
        else if j = t.a then q.a else S[j] := by
  simp only [putQuad, Fin.getElem_fin, Vector.getElem_set, Fin.ext_iff]
  simp only [eq_comm]

/-- A second write to the same group replaces the first. -/
theorem putQuad_putQuad (S : Words16) (t : Group) (q r : Quad) :
    putQuad (putQuad S t q) t r = putQuad S t r := by
  apply words16_ext
  intro j
  simp only [putQuad_getElem]
  repeat' split
  all_goals rfl

/-- Writing back what stands at a group changes nothing. -/
theorem putQuad_self (S : Words16) (t : Group) :
    putQuad S t ⟨S[t.a], S[t.b], S[t.c], S[t.d]⟩ = S := by
  apply words16_ext
  intro j
  rw [putQuad_getElem]
  repeat' split
  all_goals simp_all

/-- The eight groups have four distinct positions each (R87). -/
theorem group_distinct : ∀ g : BitVec 3, (group g).distinct = true := by decide

end Sys2Proof.Machine
end

