-- ==== Sys2Proof/Laws/PerInstr.lean ====
section
/-!
SUPPORT. The statement made of every instruction, one lemma for each constructor: the word of a
well-formed instruction selects its own row of the opcode table (R63).
-/

namespace Sys2Proof.Laws

/-- The word of a well-formed instruction selects the instruction's row, and the row is in the table. -/
def RowSelected.Statement (i : Instr) : Prop :=
  i.wf = true → i.row.selectedBy (encode i) = true ∧ i.row ∈ opcodeTable

/-- Every instruction's row is a row of the table. -/
theorem row_mem (i : Instr) : i.row ∈ opcodeTable := by
  cases i <;> simp [opcodeTable, Instr.row]

theorem RowSelected.init (key : BitVec 256) (nonce : BitVec 96) :
    RowSelected.Statement (.init key nonce) := fun _ => ⟨by simp [OpcodeRow.selectedBy, Instr.row, encode], row_mem _⟩

theorem RowSelected.setctr (ctr : BitVec 32) : RowSelected.Statement (.setctr ctr) :=
  fun _ => ⟨by simp [OpcodeRow.selectedBy, Instr.row, encode], row_mem _⟩

theorem RowSelected.start : RowSelected.Statement .start := fun _ => ⟨by simp [OpcodeRow.selectedBy, Instr.row, encode], row_mem _⟩

theorem RowSelected.block (key : BitVec 256) (ctr : BitVec 32) (nonce : BitVec 96) :
    RowSelected.Statement (.block key ctr nonce) := fun _ => ⟨by simp [OpcodeRow.selectedBy, Instr.row, encode], row_mem _⟩

theorem RowSelected.idle : RowSelected.Statement .idle := fun _ => ⟨by simp [OpcodeRow.selectedBy, Instr.row, encode], row_mem _⟩

theorem RowSelected.copy : RowSelected.Statement .copy := fun _ => ⟨by simp [OpcodeRow.selectedBy, Instr.row, encode], row_mem _⟩

theorem RowSelected.qrC0 (dr : BitVec 4) : RowSelected.Statement (.qrC0 dr) :=
  fun _ => ⟨by revert dr; decide, row_mem _⟩

theorem RowSelected.qrC1 (dr : BitVec 4) : RowSelected.Statement (.qrC1 dr) :=
  fun _ => ⟨by revert dr; decide, row_mem _⟩

theorem RowSelected.qrC2 (dr : BitVec 4) : RowSelected.Statement (.qrC2 dr) :=
  fun _ => ⟨by revert dr; decide, row_mem _⟩

theorem RowSelected.qrC3 (dr : BitVec 4) : RowSelected.Statement (.qrC3 dr) :=
  fun _ => ⟨by revert dr; decide, row_mem _⟩

theorem RowSelected.qrD0 (dr : BitVec 4) : RowSelected.Statement (.qrD0 dr) :=
  fun _ => ⟨by revert dr; decide, row_mem _⟩

theorem RowSelected.qrD1 (dr : BitVec 4) : RowSelected.Statement (.qrD1 dr) :=
  fun _ => ⟨by revert dr; decide, row_mem _⟩

theorem RowSelected.qrD2 (dr : BitVec 4) : RowSelected.Statement (.qrD2 dr) :=
  fun _ => ⟨by revert dr; decide, row_mem _⟩

theorem RowSelected.qrD3 (dr : BitVec 4) : RowSelected.Statement (.qrD3 dr) :=
  fun _ => ⟨by revert dr; decide, row_mem _⟩

theorem RowSelected.final : RowSelected.Statement .final := fun _ => ⟨by simp [OpcodeRow.selectedBy, Instr.row, encode], row_mem _⟩

end Sys2Proof.Laws
end

