-- ==== Sys2Proof/Tests/Slice0.lean ====
section
/-!
SUPPORT. Tests of one step or one function each, expected values from spec/ (95_test_vectors.md and the
worked examples of the rules), and a witness for the hypotheses of every statement that has some.
-/

namespace Sys2Proof.Tests

open Sys2Proof Sys2Proof.Machine

/-! ## Helpers -/

/-- A state with the given control and words, nothing waiting. -/
def mk (ph : Phase) (dr : BitVec 4) (g : BitVec 3) (loaded outValid : Bool) (x w : Words16) : State :=
  ⟨x, w, Vector.replicate 64 0, loaded, outValid, ⟨ph, dr, g⟩, [], 1⟩

def zeros : Words16 := Vector.replicate 16 0

/-- `X1` of 95_test_vectors.md. -/
def x1 : Words16 := #v[0x61707865, 0x3320646e, 0x79622d32, 0x6b206574, 0x03020100, 0x07060504, 0x0b0a0908, 0x0f0e0d0c, 0x13121110, 0x17161514, 0x1b1a1918, 0x1f1e1d1c, 0x00000001, 0x09000000, 0x4a000000, 0x00000000]

/-- Port values of `K` and `N` (95_test_vectors.md section 3). -/
def keyK : BitVec 256 := 0x1f1e1d1c1b1a191817161514131211100f0e0d0c0b0a09080706050403020100
def nonceN : BitVec 96 := 0x000000004a00000009000000

/-- Does the outcome give a next state with the property? -/
def nextIs (o : Host.Outcome State Fault Refusal) (f : State → Bool) : Bool :=
  match o with
  | .next t => f t
  | .fault _ => false
  | .refused _ => false

/-- Is the outcome this refusal? -/
def refusedIs (o : Host.Outcome State Fault Refusal) (r : Refusal) : Bool :=
  match o with
  | .next _ => false
  | .fault _ => false
  | .refused q => q == r

/-- An idle, loaded engine holding `X1`. -/
def idleX1 : State := mk .idle 0 0 true false x1 zeros

/-- An idle engine with nothing loaded. -/
def empty : State := mk .idle 0 0 false false zeros zeros

/-- An engine about to copy `X1`. -/
def copyX1 : State := mk .copy 0 0 true false x1 zeros

/-! ## WellFormed: an ill-formed term for each check (R60) -/

theorem test_wf_refuses_qrC0 : (Instr.qrC0 10).wf = false := by decide
theorem test_wf_refuses_qrC1 : (Instr.qrC1 10).wf = false := by decide
theorem test_wf_refuses_qrC2 : (Instr.qrC2 10).wf = false := by decide
theorem test_wf_refuses_qrC3 : (Instr.qrC3 10).wf = false := by decide
theorem test_wf_refuses_qrD0 : (Instr.qrD0 10).wf = false := by decide
theorem test_wf_refuses_qrD1 : (Instr.qrD1 10).wf = false := by decide
theorem test_wf_refuses_qrD2 : (Instr.qrD2 10).wf = false := by decide
theorem test_wf_refuses_qrD3 : (Instr.qrD3 10).wf = false := by decide

theorem test_wf_takes_last_double_round : (Instr.qrD3 9).wf = true := by decide

/-! ## Words written out from R52, R56 and R57 -/

theorem test_decode_init (k n c) : decode (.cmd ⟨0b00, k, n, c⟩) = .ok (.init k n) := rfl
theorem test_decode_setctr (k n c) : decode (.cmd ⟨0b01, k, n, c⟩) = .ok (.setctr c) := rfl
theorem test_decode_start (k n c) : decode (.cmd ⟨0b10, k, n, c⟩) = .ok .start := rfl
theorem test_decode_block (k n c) : decode (.cmd ⟨0b11, k, n, c⟩) = .ok (.block k c n) := rfl
theorem test_decode_idle : decode (.seq 0b000000000) = .ok .idle := by decide
theorem test_decode_copy : decode (.seq 0b010000000) = .ok .copy := by decide
theorem test_decode_final : decode (.seq 0b110000000) = .ok .final := by decide
theorem test_decode_qrC0 : decode (.seq 0b100000000) = .ok (.qrC0 0) := by decide
theorem test_decode_qrC1 : decode (.seq 0b100001001) = .ok (.qrC1 1) := by decide
theorem test_decode_qrC2 : decode (.seq 0b100010010) = .ok (.qrC2 2) := by decide
theorem test_decode_qrC3 : decode (.seq 0b100101011) = .ok (.qrC3 5) := by decide
theorem test_decode_qrD0 : decode (.seq 0b101000100) = .ok (.qrD0 8) := by decide
theorem test_decode_qrD1 : decode (.seq 0b100011101) = .ok (.qrD1 3) := by decide
theorem test_decode_qrD2 : decode (.seq 0b100100110) = .ok (.qrD2 4) := by decide
theorem test_decode_qrD3 : decode (.seq 0b101001111) = .ok (.qrD3 9) := by decide

/-- Reserved words (R60): MIX with DR = 10, and COPY, IDLE and FINAL with a bit set below. -/
theorem test_decode_reserved :
    decode (.seq 0b101010000) = .error .reservedSequencerWord ∧
    decode (.seq 0b010000001) = .error .reservedSequencerWord ∧
    decode (.seq 0b000001000) = .error .reservedSequencerWord ∧
    decode (.seq 0b111000000) = .error .reservedSequencerWord := by decide

/-- No word selects two rows of the table (R63). -/
theorem test_rows_do_not_overlap :
    opcodeTable.Pairwise fun r q =>
      ((List.range 512).all fun w =>
        r.format != q.format || (w &&& r.mask) != r.value || (w &&& q.mask) != q.value) = true := by
  decide +kernel

theorem test_table_words :
    decodeTableWord 8 3 = some (.block 0 0 0) ∧ decodeTableWord 16 0x14f = some (.qrD3 9) ∧
    decodeTableWord 16 0x150 = none ∧ decodeTableWord 8 4 = none := by decide

/-- A command placed after reset is run by the very next step (log 12). -/
theorem test_placed_setctr_runs :
    nextIs (step (State.reset.withFetchWord 8 1)) (fun t => t.x[12] == 0 && !t.loaded) = true := by
  decide

/-- START as the first command after reset is refused by name (R112, program P4). -/
theorem test_placed_start_is_refused :
    refusedIs (step (State.reset.withFetchWord 8 2)) .startBeforeInit = true := by decide

/-- A micro-operation placed after reset is run by the very next step (log 12). -/
theorem test_placed_qrD3_runs :
    nextIs (step (State.reset.withFetchWord 16 0x14f)) (fun t => t.sw == ⟨.final, 0, 0⟩) = true := by
  decide

/-! ## Functions (95_test_vectors.md section 2.1, 2.2, 1.1) -/

theorem test_add32_wraps : add32 0xfffffffe 0x00000003 = 0x00000001 := by decide
theorem test_xor32 : xor32 0x11111111 0x12131415 = 0x03020504 := by decide
theorem test_rotl32 : rotl32 0x12345678 16 = 0x56781234 ∧ rotl32 0x12345678 12 = 0x45678123 ∧
    rotl32 0x12345678 8 = 0x34567812 ∧ rotl32 0x12345678 7 = 0x1a2b3c09 := by decide
theorem test_qr4 : qr4 0x11111111 0x01020304 0x9b8d6f43 0x01234567 =
    ⟨0xea2a92f4, 0xcb1cf8ce, 0x4581472e, 0x5881c4bb⟩ := by decide
theorem test_qr4_wraps : qr4 0xffffffff 0xffffffff 0xffffffff 0xffffffff =
    ⟨0xf0000ffd, 0x88790878, 0x0110fdef, 0x010ffdf0⟩ := by decide

/-- The source's quarter-round vector (section 1.1). -/
theorem test_qrs_source_vector :
    qrs #v[0x879531e0, 0xc5ecf37d, 0x516461b1, 0xc9a62f8a, 0x44c20ef3, 0x3390af7f, 0xd9fc690b, 0x2a5f714c, 0x53372767, 0xb00a5631, 0x974c541a, 0x359e9963, 0x5c971061, 0x3d631689, 0x2098d9d6, 0x91dbd320] ⟨2, 7, 8, 13⟩ =
      #v[0x879531e0, 0xc5ecf37d, 0xbdb886dc, 0xc9a62f8a, 0x44c20ef3, 0x3390af7f, 0xd9fc690b, 0xcfacafd2, 0xe46bea80, 0xb00a5631, 0x974c541a, 0x359e9963, 0x5c971061, 0xccc07c79, 0x2098d9d6, 0x91dbd320] := by
  decide

/-- `SIGMA` (R69). -/
theorem test_sigma : sigma = #v[0x65, 0x78, 0x70, 0x61, 0x6e, 0x64, 0x20, 0x33,
    0x32, 0x2d, 0x62, 0x79, 0x74, 0x65, 0x20, 0x6b] := by decide

theorem test_memRead : memRead (#v[0x65, 0x78, 0x70, 0x61] : Vector Byte 4) 0 = 0x61707865 := by
  decide
theorem test_memWrite : memWrite (Vector.replicate 4 (0 : Byte)) 0 0xe4e7f110 =
    #v[0x10, 0xf1, 0xe7, 0xe4] := by decide

/-- `DROUND(X1)` (R89). -/
theorem test_dround : dround x1 = #v[0xcd52e917, 0x85ab03b4, 0xb3457395, 0xf96de7dd, 0xc4b7cd22, 0x5c2e187a, 0xc95eb461, 0x316c801a, 0x7bf7d740, 0x7eddd644, 0xf1a1bdf5, 0x761246ca, 0x6b0d58a3, 0x6798471a, 0xd737f167, 0xf173888d] := by
  decide

/-- `ROUNDS(X1)` (R90). -/
theorem test_rounds : rounds x1 = #v[0x837778ab, 0xe238d763, 0xa67ae21e, 0x5950bb2f, 0xc4f2d0c7, 0xfc62bb2f, 0x8fa018fc, 0x3f5ec7b7, 0x335271c2, 0xf29489f3, 0xeabda8fc, 0x82e46ebd, 0xd19c12b4, 0xb04e16de, 0x9e83d0cb, 0x4e3c50a2] := by
  decide +kernel

/-- `BLOCKFN(K, 1, N)`, the source's block vector (section 1.3). -/
theorem test_blockFn : blockFn (keyBytes keyK) 1 (nonceBytes nonceN) =
    #v[0x10, 0xf1, 0xe7, 0xe4, 0xd1, 0x3b, 0x59, 0x15, 0x50, 0x0f, 0xdd, 0x1f, 0xa3, 0x20, 0x71, 0xc4, 0xc7, 0xd1, 0xf4, 0xc7, 0x33, 0xc0, 0x68, 0x03, 0x04, 0x22, 0xaa, 0x9a, 0xc3, 0xd4, 0x6c, 0x4e,
      0xd2, 0x82, 0x64, 0x46, 0x07, 0x9f, 0xaa, 0x09, 0x14, 0xc2, 0xd7, 0x05, 0xd9, 0x8b, 0x02, 0xa2, 0xb5, 0x12, 0x9c, 0xd1, 0xde, 0x16, 0x4e, 0xb9, 0xcb, 0xd0, 0x83, 0xe8, 0xa2, 0x50, 0x3c, 0x4e] := by
  decide +kernel

/-! ## Commands (95_test_vectors.md section 2.7) -/

/-- The source's initialisation vector (section 1.2, row 2). -/
theorem test_init : nextIs (exec (.init keyK nonceN) empty) (fun t =>
    t.x == x1.set 12 0 && t.loaded && !t.outValid && t.sw == ⟨.idle, 0, 0⟩) = true := by decide

/-- INIT leaves a finished result valid (row 14). -/
theorem test_init_keeps_result : nextIs (exec (.init 0 0) (mk .idle 0 0 true true x1 zeros)) (fun t =>
    t.outValid && t.x[4] == 0 && t.x[0] == 0x61707865) = true := by decide

/-- SETCTR before INIT is accepted and leaves LOADED = 0 (row 5). -/
theorem test_setctr_unloaded : nextIs (exec (.setctr 5) empty) (fun t =>
    t.x[12] == 5 && !t.loaded) = true := by decide

theorem test_setctr_held : nextIs (exec (.setctr 2) copyX1) (fun t => t == copyX1) = true := by decide

/-- START with a valid output clears it (row 7). -/
theorem test_start : nextIs (exec .start (mk .idle 0 0 true true x1 zeros)) (fun t =>
    !t.outValid && t.sw == ⟨.copy, 0, 0⟩ && t.busy && t.x == x1) = true := by decide

theorem test_start_unloaded : refusedIs (exec .start empty) .startBeforeInit = true := by decide

/-- BLOCK from an empty engine (row 10). -/
theorem test_block : nextIs (exec (.block keyK 1 nonceN) empty) (fun t =>
    t.x == x1 && t.loaded && !t.outValid && t.sw == ⟨.copy, 0, 0⟩) = true := by decide

/-! ## Micro-operations (95_test_vectors.md section 2.3, 2.4) -/

theorem test_idle : nextIs (exec .idle idleX1) (fun t => t == idleX1) = true := by decide

theorem test_copy : nextIs (event quietPorts copyX1) (fun t =>
    t.w == x1 && t.sw == ⟨.mix, 0, 0⟩) = true := by decide

theorem test_qrC0 : nextIs (event quietPorts (mk .mix 0 0 true false x1
    #v[0x61707865, 0x3320646e, 0x79622d32, 0x6b206574, 0x03020100, 0x07060504, 0x0b0a0908, 0x0f0e0d0c, 0x13121110, 0x17161514, 0x1b1a1918, 0x1f1e1d1c, 0x00000001, 0x09000000, 0x4a000000, 0x00000000])) (fun t =>
    t.w == #v[0xabbaa25c, 0x3320646e, 0x79622d32, 0x6b206574, 0x3a465196, 0x07060504, 0x0b0a0908, 0x0f0e0d0c, 0x6b3ca454, 0x17161514, 0x1b1a1918, 0x1f1e1d1c, 0xdec62ed2, 0x09000000, 0x4a000000, 0x00000000] &&
      t.sw == ⟨.mix, 0, 1⟩) = true := by decide

theorem test_qrC1 : nextIs (event quietPorts (mk .mix 0 1 true false x1
    #v[0xabbaa25c, 0x3320646e, 0x79622d32, 0x6b206574, 0x3a465196, 0x07060504, 0x0b0a0908, 0x0f0e0d0c, 0x6b3ca454, 0x17161514, 0x1b1a1918, 0x1f1e1d1c, 0xdec62ed2, 0x09000000, 0x4a000000, 0x00000000])) (fun t =>
    t.w == #v[0xabbaa25c, 0x1efa51ea, 0x79622d32, 0x6b206574, 0x3a465196, 0x1c7e64f6, 0x0b0a0908, 0x0f0e0d0c, 0x6b3ca454, 0x08eb14b1, 0x1b1a1918, 0x1f1e1d1c, 0xdec62ed2, 0x8862cc77, 0x4a000000, 0x00000000] &&
      t.sw == ⟨.mix, 0, 2⟩) = true := by decide

theorem test_qrC2 : nextIs (event quietPorts (mk .mix 0 2 true false x1
    #v[0xabbaa25c, 0x1efa51ea, 0x79622d32, 0x6b206574, 0x3a465196, 0x1c7e64f6, 0x0b0a0908, 0x0f0e0d0c, 0x6b3ca454, 0x08eb14b1, 0x1b1a1918, 0x1f1e1d1c, 0xdec62ed2, 0x8862cc77, 0x4a000000, 0x00000000])) (fun t =>
    t.w == #v[0xabbaa25c, 0x1efa51ea, 0x7354fbdf, 0x6b206574, 0x3a465196, 0x1c7e64f6, 0xb12fb628, 0x0f0e0d0c, 0x6b3ca454, 0x08eb14b1, 0xbf8a9ac9, 0x1f1e1d1c, 0xdec62ed2, 0x8862cc77, 0x6e35b345, 0x00000000] &&
      t.sw == ⟨.mix, 0, 3⟩) = true := by decide

theorem test_qrC3 : nextIs (event quietPorts (mk .mix 0 3 true false x1
    #v[0xabbaa25c, 0x1efa51ea, 0x7354fbdf, 0x6b206574, 0x3a465196, 0x1c7e64f6, 0xb12fb628, 0x0f0e0d0c, 0x6b3ca454, 0x08eb14b1, 0xbf8a9ac9, 0x1f1e1d1c, 0xdec62ed2, 0x8862cc77, 0x6e35b345, 0x00000000])) (fun t =>
    t.w == #v[0xabbaa25c, 0x1efa51ea, 0x7354fbdf, 0x83d2dc69, 0x3a465196, 0x1c7e64f6, 0xb12fb628, 0xf05b6976, 0x6b3ca454, 0x08eb14b1, 0xbf8a9ac9, 0xe444df3b, 0xdec62ed2, 0x8862cc77, 0x6e35b345, 0x52a647f1] &&
      t.sw == ⟨.mix, 0, 4⟩) = true := by decide

theorem test_qrD0 : nextIs (event quietPorts (mk .mix 0 4 true false x1
    #v[0xabbaa25c, 0x1efa51ea, 0x7354fbdf, 0x83d2dc69, 0x3a465196, 0x1c7e64f6, 0xb12fb628, 0xf05b6976, 0x6b3ca454, 0x08eb14b1, 0xbf8a9ac9, 0xe444df3b, 0xdec62ed2, 0x8862cc77, 0x6e35b345, 0x52a647f1])) (fun t =>
    t.w == #v[0xcd52e917, 0x1efa51ea, 0x7354fbdf, 0x83d2dc69, 0x3a465196, 0x5c2e187a, 0xb12fb628, 0xf05b6976, 0x6b3ca454, 0x08eb14b1, 0xf1a1bdf5, 0xe444df3b, 0xdec62ed2, 0x8862cc77, 0x6e35b345, 0xf173888d] &&
      t.sw == ⟨.mix, 0, 5⟩) = true := by decide

theorem test_qrD1 : nextIs (event quietPorts (mk .mix 0 5 true false x1
    #v[0xcd52e917, 0x1efa51ea, 0x7354fbdf, 0x83d2dc69, 0x3a465196, 0x5c2e187a, 0xb12fb628, 0xf05b6976, 0x6b3ca454, 0x08eb14b1, 0xf1a1bdf5, 0xe444df3b, 0xdec62ed2, 0x8862cc77, 0x6e35b345, 0xf173888d])) (fun t =>
    t.w == #v[0xcd52e917, 0x85ab03b4, 0x7354fbdf, 0x83d2dc69, 0x3a465196, 0x5c2e187a, 0xc95eb461, 0xf05b6976, 0x6b3ca454, 0x08eb14b1, 0xf1a1bdf5, 0x761246ca, 0x6b0d58a3, 0x8862cc77, 0x6e35b345, 0xf173888d] &&
      t.sw == ⟨.mix, 0, 6⟩) = true := by decide

theorem test_qrD2 : nextIs (event quietPorts (mk .mix 0 6 true false x1
    #v[0xcd52e917, 0x85ab03b4, 0x7354fbdf, 0x83d2dc69, 0x3a465196, 0x5c2e187a, 0xc95eb461, 0xf05b6976, 0x6b3ca454, 0x08eb14b1, 0xf1a1bdf5, 0x761246ca, 0x6b0d58a3, 0x8862cc77, 0x6e35b345, 0xf173888d])) (fun t =>
    t.w == #v[0xcd52e917, 0x85ab03b4, 0xb3457395, 0x83d2dc69, 0x3a465196, 0x5c2e187a, 0xc95eb461, 0x316c801a, 0x7bf7d740, 0x08eb14b1, 0xf1a1bdf5, 0x761246ca, 0x6b0d58a3, 0x6798471a, 0x6e35b345, 0xf173888d] &&
      t.sw == ⟨.mix, 0, 7⟩) = true := by decide

theorem test_qrD3 : nextIs (event quietPorts (mk .mix 0 7 true false x1
    #v[0xcd52e917, 0x85ab03b4, 0xb3457395, 0x83d2dc69, 0x3a465196, 0x5c2e187a, 0xc95eb461, 0x316c801a, 0x7bf7d740, 0x08eb14b1, 0xf1a1bdf5, 0x761246ca, 0x6b0d58a3, 0x6798471a, 0x6e35b345, 0xf173888d])) (fun t =>
    t.w == #v[0xcd52e917, 0x85ab03b4, 0xb3457395, 0xf96de7dd, 0xc4b7cd22, 0x5c2e187a, 0xc95eb461, 0x316c801a, 0x7bf7d740, 0x7eddd644, 0xf1a1bdf5, 0x761246ca, 0x6b0d58a3, 0x6798471a, 0xd737f167, 0xf173888d] &&
      t.sw == ⟨.mix, 1, 0⟩) = true := by decide

/-- The tenth QR.D3 ends the rounds (R102, step 81 of section 2.3). -/
theorem test_qrD3_last : nextIs (event quietPorts (mk .mix 9 7 true false x1
    #v[0x837778ab, 0xe238d763, 0xa67ae21e, 0x4afbe5df, 0x913768fe, 0xfc62bb2f, 0x8fa018fc, 0x3f5ec7b7, 0x335271c2, 0xc1428029, 0xeabda8fc, 0x82e46ebd, 0xd19c12b4, 0xb04e16de, 0xe4ccdc13, 0x4e3c50a2])) (fun t =>
    t.w == #v[0x837778ab, 0xe238d763, 0xa67ae21e, 0x5950bb2f, 0xc4f2d0c7, 0xfc62bb2f, 0x8fa018fc, 0x3f5ec7b7, 0x335271c2, 0xf29489f3, 0xeabda8fc, 0x82e46ebd, 0xd19c12b4, 0xb04e16de, 0x9e83d0cb, 0x4e3c50a2] &&
      t.sw == ⟨.final, 0, 0⟩) = true := by decide

/-- FINAL (R105): the bytes and the port value of section 3. -/
theorem test_final : nextIs (event quietPorts (mk .final 0 0 true false x1
    #v[0x837778ab, 0xe238d763, 0xa67ae21e, 0x5950bb2f, 0xc4f2d0c7, 0xfc62bb2f, 0x8fa018fc, 0x3f5ec7b7, 0x335271c2, 0xf29489f3, 0xeabda8fc, 0x82e46ebd, 0xd19c12b4, 0xb04e16de, 0x9e83d0cb, 0x4e3c50a2])) (fun t =>
    t.outBlock 0 == 0x4e3c50a2e883d0cbb94e16ded19c12b5a2028bd905d7c21409aa9f07466482d24e6cd4c39aaa22040368c033c7f4d1c7c47120a31fdd0f5015593bd1e4e7f110 &&
      t.outValid && t.sw == ⟨.idle, 0, 0⟩) = true := by decide +kernel

/-! ## Events (95_test_vectors.md section 2.7, rows 9, 12, 13) -/

/-- Reset in the middle of a computation, a command offered at the same time. -/
theorem test_reset_wins : nextIs (event ⟨true, true, ⟨3, keyK, nonceN, 1⟩⟩ (mk .mix 4 2 true false x1 x1))
    (fun t => t.sw == ⟨.idle, 0, 0⟩ && !t.loaded && !t.outValid) = true := by decide

/-- A command offered while busy is held: the sequencer steps and X stays. -/
theorem test_hold : nextIs (event (offer ⟨1, 0, 0, 2⟩) copyX1) (fun t =>
    t.x[12] == 1 && t.sw == ⟨.mix, 0, 0⟩) = true := by decide

theorem test_reserved_is_refused :
    refusedIs (event quietPorts (mk .mix 10 0 true false x1 x1)) .reservedSequencerWord = true := by
  decide

theorem test_step_takes_first_ports :
    nextIs (step (State.mk x1 zeros (Vector.replicate 64 0) true false ⟨.idle, 0, 0⟩
      [offer ⟨1, 0, 0, 7⟩, quietPorts] 1)) (fun t => t.x[12] == 7 && t.inputs == [quietPorts]) = true := by
  decide

/-! ## Witnesses: for each statement, a state and operands that meet each clause's hypotheses -/

/-- 82 quiet events. -/
def quiet82 : List InPorts := List.replicate 82 quietPorts

theorem quiet82_ok : noReset quiet82 = true ∧ quiet82.length = 82 := by decide

/-- An engine at the last MIX word. -/
def lastMix : State := mk .mix 9 7 true false x1 x1

/-- An engine at FINAL. -/
def atFinal : State := mk .final 0 0 true false x1 x1

/-- An engine at a reserved word. -/
def atReserved : State := mk .mix 10 0 true false x1 x1

theorem witness_DecodeOfEncodeIsIdentity : (Instr.qrD3 9).wf = true := by decide

theorem witness_EncodeOfDecodeIsIdentity : decode (.seq 0x14f) = .ok (.qrD3 9) := by decide

theorem witness_ReservedWordsAreUnreachableAndRefused :
    (lastMix.sw.reachable = true ∧ ∃ t, event quietPorts lastMix = .next t) ∧
    (atReserved.sw.reachable = false ∧ atReserved.busy = true ∧ quietPorts.rst = false) :=
  ⟨⟨by decide, _, event_mix rfl rfl (by decide)⟩, by decide⟩

theorem witness_UnusedPortsAreIgnored_accepted :
    (accepts (offer ⟨0b00, keyK, nonceN, 1⟩) idleX1 = true ∧ (offer ⟨0b00, keyK, nonceN, 1⟩).cmd.op = 0b00) ∧
    (accepts (offer ⟨0b01, keyK, nonceN, 1⟩) idleX1 = true ∧ (offer ⟨0b01, keyK, nonceN, 1⟩).cmd.op = 0b01) ∧
    (accepts (offer ⟨0b10, keyK, nonceN, 1⟩) idleX1 = true ∧ (offer ⟨0b10, keyK, nonceN, 1⟩).cmd.op = 0b10) ∧
    (accepts (offer ⟨0b11, keyK, nonceN, 1⟩) idleX1 = true ∧ (offer ⟨0b11, keyK, nonceN, 1⟩).cmd.op = 0b11) := by
  decide

theorem witness_UnusedPortsAreIgnored :
    sameUsedPorts (offer ⟨0, keyK, nonceN, 1⟩) (offer ⟨0, keyK, nonceN, 2⟩) ∧
    sameUsedPorts (offer ⟨1, keyK, nonceN, 1⟩) (offer ⟨1, 0, 0, 1⟩) ∧
    sameUsedPorts (offer ⟨2, keyK, nonceN, 1⟩) (offer ⟨2, 0, 0, 0⟩) ∧
    sameUsedPorts (offer ⟨3, keyK, nonceN, 1⟩) (offer ⟨3, keyK, nonceN, 1⟩) ∧
    ((offer ⟨3, keyK, nonceN, 1⟩).rst = quietPorts.rst ∧
      accepts (offer ⟨3, keyK, nonceN, 1⟩) copyX1 = false ∧ accepts quietPorts copyX1 = false) := by
  refine ⟨?_, ?_, ?_, ?_, by decide⟩ <;> simp [sameUsedPorts, samePortControl, offer]

theorem witness_StepRunsTheDecodedInstruction :
    (({ idleX1 with inputs := [offer ⟨2, 0, 0, 0⟩] } : State).portsNow.rst = false ∧
      decode (eventWord (offer ⟨2, 0, 0, 0⟩) idleX1) = .ok .start) ∧
    (copyX1.portsNow.rst = false ∧ decode (eventWord copyX1.portsNow copyX1) = .ok .copy) ∧
    ({ copyX1 with inputs := [resetPorts] } : State).portsNow.rst = true := by decide

theorem witness_ResetEventLeavesIdleEngine : resetPorts.rst = true := by decide

theorem witness_ResetWinsAndEventsNeverCoincide :
    (resetPorts.rst = true ∧ (InPorts.mk true true ⟨3, keyK, nonceN, 1⟩).rst = true) ∧
    (atFinal.sw = ⟨.final, 0, 0⟩ ∧ quietPorts.rst = false) ∧
    accepts (offer ⟨2, 0, 0, 0⟩) idleX1 = true ∧
    (accepts quietPorts copyX1 = false ∧ quietPorts.rst = false ∧
      ∃ t, event quietPorts copyX1 = .next t ∧ t ≠ copyX1) :=
  ⟨by decide, by decide, by decide, by decide, by decide, _, event_copy rfl rfl, by decide⟩

/-- InitLoadsKeyAndNonce, SetctrWritesWordTwelve, StartBeginsTheBlock, StartBeforeInitIsRefused,
LastSetctrWins, InitAfterSetctrLosesTheCounter: idle, busy, loaded, not loaded. -/
theorem witness_commands :
    idleX1.sw.ph = .idle ∧ idleX1.loaded = true ∧ copyX1.sw.ph ≠ .idle ∧ empty.sw.ph = .idle ∧
    empty.loaded = false ∧ accepts (offer ⟨2, 0, 0, 0⟩) empty = true ∧
    (offer ⟨2, 0, 0, 0⟩).cmd.op = 0b10 := by decide

theorem witness_BlockCommandComputesBlockFn :
    idleX1.sw.ph = .idle ∧ (⟨0b00, keyK, nonceN, 9⟩ : CmdWord) = ⟨0b00, keyK, nonceN, 9⟩ ∧
    (⟨0b01, 5, 6, 1⟩ : CmdWord) = ⟨0b01, 5, 6, 1⟩ ∧ (⟨0b10, 7, 8, 9⟩ : CmdWord).op = 0b10 ∧
    noReset quiet82 = true ∧ quiet82.length = 82 := by decide

theorem witness_InitAndSetctrKeepTheResult :
    (Instr.init keyK nonceN = .init keyK nonceN ∨ Instr.init keyK nonceN = .setctr 1) ∧
    (Instr.setctr 1 = .init keyK nonceN ∨ Instr.setctr 1 = .setctr 1) ∧
    (mk .idle 0 0 true true x1 zeros).outValid = true ∧
    (mk .idle 0 0 true true x1 zeros).sw.ph = .idle := ⟨.inl rfl, .inr rfl, rfl, rfl⟩

theorem witness_IdleDoesNothing :
    (idleX1.sw = ⟨.idle, 0, 0⟩ ∧ quietPorts.rst = false ∧ accepts quietPorts idleX1 = false) ∧
    accepts (offer ⟨0, 0, 0, 0⟩) idleX1 = true := by decide

/-- ColumnQuarterRounds, DiagonalQuarterRounds. -/
theorem witness_QuarterRounds : (0 : BitVec 4).toNat ≤ 9 ∧ (9 : BitVec 4).toNat ≤ 9 := by decide

theorem witness_MicroOperationFrame :
    isCommand .final = false ∧ (∃ t, exec .final atFinal = .next t) ∧
    isCommand .idle = false ∧ (∃ t, exec .idle idleX1 = .next t) ∧
    isCommand (.qrD3 9) = false ∧ (∃ t, exec (.qrD3 9) lastMix = .next t) :=
  ⟨rfl, ⟨_, rfl⟩, rfl, ⟨_, rfl⟩, rfl, ⟨_, rfl⟩⟩

theorem witness_CommandFrame :
    isCommand .start = true ∧ (∃ t, exec .start idleX1 = .next t) ∧
    isCommand (.setctr 1) = true ∧ (∃ t, exec (.setctr 1) idleX1 = .next t) ∧
    isCommand (.init 0 0) = true ∧ (∃ t, exec (.init 0 0) idleX1 = .next t) :=
  ⟨rfl, ⟨_, rfl⟩, rfl, ⟨_, rfl⟩, rfl, ⟨_, rfl⟩⟩

theorem witness_SequencerStep :
    (quietPorts.rst = false ∧ copyX1.sw = ⟨.copy, 0, 0⟩) ∧
    (lastMix.sw.ph = .mix ∧ lastMix.sw.dr.toNat ≤ 9) ∧ atFinal.sw = ⟨.final, 0, 0⟩ ∧
    (idleX1.sw = ⟨.idle, 0, 0⟩ ∧ quietPorts.cmdValid = false) ∧
    (noReset quiet82 = true ∧ quiet82.length = 82) := by decide

/-- CopyDuplicatesX, SequencerWordAdvancesOnlyAsStated, OnlyCommandsAndResetWriteX, LoadedFollowsInitAndBlock,
OutValidFollowsTheBlock: one event of each kind that answers a next state: reset, an accepted START, the last
MIX step, FINAL. -/
theorem witness_events_answer :
    (∃ t, event resetPorts copyX1 = .next t) ∧
    (accepts (offer ⟨2, 0, 0, 0⟩) idleX1 = true ∧
      ∃ t, event (offer ⟨2, 0, 0, 0⟩) idleX1 = .next t ∧ t.sw.ph = .copy) ∧
    (lastMix.busy = true ∧ accepts quietPorts lastMix = false ∧
      ∃ t, event quietPorts lastMix = .next t) ∧
    (atFinal.busy = true ∧ ∃ t, event quietPorts atFinal = .next t ∧ t.busy = false) :=
  ⟨⟨_, event_reset _ rfl⟩, ⟨by decide, _, (event_command rfl rfl rfl).trans rfl, rfl⟩,
    ⟨by decide, by decide, _, event_mix rfl rfl (by decide)⟩,
    ⟨by decide, _, event_final rfl rfl, by decide⟩⟩

theorem witness_SequencerWordSequenceIsFixed :
    copyX1.sw = ⟨.copy, 0, 0⟩ ∧ noReset quiet82 = true ∧ quiet82.length ≤ 82 ∧
    noReset [] = true ∧ ([] : List InPorts).length ≤ 82 := by decide

theorem witness_BlockComputationBigStep :
    (accepts (offer ⟨0b10, 0, 0, 0⟩) idleX1 = true ∧ idleX1.loaded = true ∧
      ∃ u, event (offer ⟨0b10, 0, 0, 0⟩) idleX1 = .next u) ∧
    (accepts (offer ⟨0b11, keyK, nonceN, 1⟩) empty = true ∧
      ∃ u, event (offer ⟨0b11, keyK, nonceN, 1⟩) empty = .next u) :=
  ⟨⟨by decide, rfl, _, (event_command rfl rfl rfl).trans rfl⟩,
    ⟨by decide, _, (event_command rfl rfl rfl).trans rfl⟩⟩

theorem witness_SequencerAlwaysReachesIdle :
    (copyX1.sw.reachable = true ∧ copyX1.sw.stepsLeft = 82) ∧
    (lastMix.sw.reachable = true ∧ lastMix.sw.stepsLeft = 2) ∧
    (atFinal.sw.reachable = true ∧ atFinal.sw.stepsLeft = 1) ∧
    (idleX1.sw.reachable = true ∧ idleX1.sw.stepsLeft = 0) := by decide

theorem witness_HeldCommandsHaveNoEffect :
    copyX1.busy = true ∧ (offer ⟨1, 0, 0, 2⟩).rst = false ∧ quietPorts.cmdValid = false ∧
    isCommand (.setctr 2) = true := by decide

theorem witness_XIsFixedWhileBusy :
    noReset [quietPorts] = true ∧
    (∀ k, k < 1 → ∃ u, runEvents ([quietPorts].take k) copyX1 = .next u ∧ u.busy = true) ∧
    ∃ t, runEvents [quietPorts] copyX1 = .next t :=
  ⟨by decide, fun k hk => by obtain rfl : k = 0 := by omega
                             exact ⟨copyX1, rfl, by decide⟩,
    _, runEvents_cons (event_copy rfl rfl)⟩

theorem witness_EarlierWorkingStateInfluencesNothing :
    copyX1.sw = ⟨.copy, 0, 0⟩ ∧ quietPorts.rst = false := by decide

theorem witness_InitSetctrStartDeliversBlockFn :
    resetPorts.rst = true ∧ noReset quiet82 = true ∧ quiet82.length = 82 := by decide

theorem witness_TraceLinesAreServed :
    lastMix.sw.reachable = true ∧ idleX1.sw.reachable = true := by decide

theorem witness_DataNeverSteersControl :
    samePortControl (offer ⟨3, keyK, nonceN, 1⟩) (offer ⟨3, 0, 0, 0⟩) ∧
    sameControl idleX1 (mk .idle 0 0 true false zeros x1) := by
  simp [samePortControl, sameControl, offer, idleX1, mk]

theorem witness_OutputIsAFunctionOfTheInputs :
    (accepts (offer ⟨2, 0, 0, 0⟩) idleX1 = true ∧
      accepts (offer ⟨2, 5, 6, 7⟩) (mk .idle 0 0 true true x1 x1) = true ∧
      idleX1.x = (mk .idle 0 0 true true x1 x1).x ∧ idleX1.loaded = true) ∧
    (accepts (offer ⟨3, keyK, nonceN, 1⟩) empty = true ∧
      sameUsedPorts (offer ⟨3, keyK, nonceN, 1⟩) (offer ⟨3, keyK, nonceN, 1⟩)) :=
  ⟨by decide, by decide, by simp [sameUsedPorts, samePortControl]⟩

/-- An idle, loaded engine whose X is the original state of a block. -/
def idleBlock : State :=
  mk .idle 0 0 true false (blockState (keyBytes keyK) 1 (nonceBytes nonceN)) zeros

theorem witness_StateIsReusedAcrossBlocks :
    idleBlock.sw.ph = .idle ∧ idleBlock.loaded = true ∧
    idleBlock.x = blockState (keyBytes keyK) 1 (nonceBytes nonceN) := ⟨rfl, rfl, rfl⟩

/-- StepKeepsTheInvariant, ConstantWordsStayOnceLoaded: the invariant holds of a loaded engine with no output,
whose next step answers a next state. -/
theorem witness_invariant_loaded :
    idleBlock.Inv ∧ idleBlock.loaded = true ∧ ∃ t, step idleBlock = .next t := by
  refine ⟨⟨rfl, ?_, ?_, ?_, ?_, ?_⟩, rfl, _, event_idle rfl rfl rfl⟩
  · intro h; exact absurd h (by simp [idleBlock, mk])
  · intro _; exact ⟨_, _, _, rfl⟩
  · intro h; simp [idleBlock, mk] at h
  · intro h; simp [idleBlock, mk] at h
  · intro h; simp [idleBlock, mk] at h

/-- OnlyStartBeforeInitIsRefused: the invariant holds of an engine with nothing loaded that is offered START. -/
theorem witness_invariant_unloaded :
    ({ empty with inputs := [offer ⟨2, 0, 0, 0⟩] } : State).Inv ∧
    accepts (offer ⟨2, 0, 0, 0⟩) empty = true := by
  refine ⟨⟨rfl, ?_, ?_, ?_, ?_, ?_⟩, by decide⟩ <;> intro h <;> simp [empty, mk] at h

theorem witness_RotateMovesEveryBitLeft : 1 ≤ 1 ∧ 1 ≤ 31 ∧ 31 ≤ 31 ∧ 0 < 32 ∧ 31 < 32 := by decide

/-- QuarterRoundTouchesOnlyItsGroup, RoundsIsABijection, GroupsOfAPassCommute. -/
theorem witness_groups :
    (group 0).distinct = true ∧ (group 7).distinct = true ∧
    (group 4).disjoint (group 7) = true ∧ (4 : BitVec 3) ≠ 7 ∧
    (4 : BitVec 3).toNat / 4 = (7 : BitVec 3).toNat / 4 := by decide

theorem witness_MemoryAccessIsLittleEndian : 60 + 4 ≤ 64 ∧ (59 < 64 ∧ 59 < 60) := by decide

theorem witness_OutputPortsShowTheState : (mk .idle 0 0 true true x1 zeros).outValid = true := rfl

end Sys2Proof.Tests
end

section
/-!
PROOFS of the statements of 00_scope.md: no data value steers control (R6), and a step is one event (R9).
-/

namespace Sys2Proof.Machine

/-! ## Control is independent of data (R6, R82)

What a meaning answers, and which control state it leaves, it decides from `SW` and the flags alone. -/

section SameControl

variable {s t : State}

/-! ### The state operations keep the agreement on control, whatever data each side writes -/

theorem sameControl_setX (h : sameControl s t) (S T : Words16) :
    sameControl (s.setX S) (t.setX T) := h

theorem sameControl_markLoaded (h : sameControl s t) :
    sameControl s.markLoaded t.markLoaded := by
  obtain ⟨hsw, -, hv, hin, hd⟩ := h
  simp [sameControl, *]

theorem sameControl_setCounter (h : sameControl s t) (c d : Word) :
    sameControl (s.setCounter c) (t.setCounter d) := h

theorem sameControl_beginBlock (h : sameControl s t) :
    sameControl s.beginBlock t.beginBlock := by
  obtain ⟨-, hl, -, hin, hd⟩ := h
  simp [sameControl, State.beginBlock, *]

theorem sameControl_setW (h : sameControl s t) (S T : Words16) :
    sameControl (s.setW S) (t.setW T) := h

theorem sameControl_setOut (h : sameControl s t) (A B : OutBytes) :
    sameControl (s.setOut A) (t.setOut B) := h

theorem sameControl_raiseOutValid (h : sameControl s t) :
    sameControl s.raiseOutValid t.raiseOutValid := by
  obtain ⟨hsw, hl, -, hin, hd⟩ := h
  simp [sameControl, *]

theorem sameControl_setSW (h : sameControl s t) (ph : Phase) (dr : BitVec 4) (g : BitVec 3) :
    sameControl (s.setSW ph dr g) (t.setSW ph dr g) := by
  obtain ⟨-, hl, hv, hin, hd⟩ := h
  simp [sameControl, *]

theorem sameControl_quarterStep (h : sameControl s t) (u : Group) (ph : Phase) (dr : BitVec 4)
    (g : BitVec 3) : sameControl (quarterStep s u ph dr g) (quarterStep t u ph dr g) :=
  sameControl_setSW (sameControl_setW h _ _) ph dr g

theorem sameControl_resetEvent (h : sameControl s t) :
    sameControl (resetEvent s) (resetEvent t) := by
  obtain ⟨-, -, -, hin, hd⟩ := h
  simp [sameControl, *]

/-- The hold looks at `PH` only, so both sides hold or neither does (R50). -/
theorem whenIdle_sameKind (h : sameControl s t) {r q : Host.Outcome State Fault Refusal}
    (hrq : sameKind r q) : sameKind (whenIdle s r) (whenIdle t q) := by
  have hsw : s.sw = t.sw := h.1
  by_cases hi : s.sw.ph = .idle
  · rwa [whenIdle_idle hi, whenIdle_idle (hsw ▸ hi)]
  · rwa [whenIdle_busy hi, whenIdle_busy (hsw ▸ hi)]

/-! ### The commands, each side under operands of its own -/

theorem execInit_sameKind (h : sameControl s t) (k k' : BitVec 256) (n n' : BitVec 96) :
    sameKind (execInit k n s) (execInit k' n' t) :=
  whenIdle_sameKind h (sameControl_markLoaded (sameControl_setX h _ _))

theorem execSetctr_sameKind (h : sameControl s t) (c c' : BitVec 32) :
    sameKind (execSetctr c s) (execSetctr c' t) :=
  whenIdle_sameKind h (sameControl_setCounter h _ _)

/-- START is refused by the flag `LOADED`, not by what `X` holds (R112). -/
theorem execStart_sameKind (h : sameControl s t) : sameKind (execStart s) (execStart t) := by
  have ⟨_, hl, _⟩ := h
  refine whenIdle_sameKind h ?_
  rw [← hl]
  cases s.loaded with
  | true => exact sameControl_beginBlock h
  | false => rfl

theorem execBlock_sameKind (h : sameControl s t) (k k' : BitVec 256) (c c' : BitVec 32)
    (n n' : BitVec 96) : sameKind (execBlock k c n s) (execBlock k' c' n' t) :=
  whenIdle_sameKind h <| sameControl_beginBlock <| sameControl_markLoaded <|
    sameControl_setCounter (sameControl_setX h _ _) c c'

/-- The code alone decides which command runs, and no operand decides what it answers (R52). -/
theorem exec_decodeCmd_sameKind (h : sameControl s t) {c d : CmdWord} (hop : c.op = d.op) :
    sameKind (exec (decodeCmd c) s) (exec (decodeCmd d) t) := by
  obtain hc | hc | hc | hc := op_cases c.op
  · rw [decodeCmd_init hc, decodeCmd_init (hop ▸ hc)]
    exact execInit_sameKind h _ _ _ _
  · rw [decodeCmd_setctr hc, decodeCmd_setctr (hop ▸ hc)]
    exact execSetctr_sameKind h _ _
  · rw [decodeCmd_start hc, decodeCmd_start (hop ▸ hc)]
    exact execStart_sameKind h
  · rw [decodeCmd_block hc, decodeCmd_block (hop ▸ hc)]
    exact execBlock_sameKind h _ _ _ _ _ _

/-! ### The micro-operations -/

/-- QR.D3 ends the rounds by the value of `DR`, which is control (R102). -/
theorem execQrD3_sameKind (h : sameControl s t) (dr : BitVec 4) :
    sameKind (execQrD3 dr s) (execQrD3 dr t) := by
  unfold execQrD3
  split
  · exact sameControl_quarterStep h _ _ _ _
  · exact sameControl_quarterStep h _ _ _ _

theorem exec_sameKind (h : sameControl s t) (i : Instr) : sameKind (exec i s) (exec i t) := by
  cases i with
  | init k n => exact execInit_sameKind h k k n n
  | setctr c => exact execSetctr_sameKind h c c
  | start => exact execStart_sameKind h
  | block k c n => exact execBlock_sameKind h k k c c n n
  | idle => exact h
  | copy => exact sameControl_setSW (sameControl_setW h _ _) _ _ _
  | qrD3 dr => exact execQrD3_sameKind h dr
  | final => exact sameControl_setSW (sameControl_raiseOutValid (sameControl_setOut h _ _)) _ _ _
  | qrC0 | qrC1 | qrC2 | qrC3 | qrD0 | qrD1 | qrD2 => exact sameControl_quarterStep h _ _ _ _

/-- A sequencer event runs what `SW` selects, the same on both sides, or refuses on both (R57, R60). -/
theorem event_sequencer_sameKind (h : sameControl s t) {p q : InPorts} (hp : p.rst = false)
    (hq : q.rst = false) (hps : ¬(s.sw.ph = .idle ∧ p.cmdValid = true))
    (hqt : ¬(t.sw.ph = .idle ∧ q.cmdValid = true)) : sameKind (event p s) (event q t) := by
  have hsw : s.sw = t.sw := h.1
  rw [event_sequencer hp hps, event_sequencer hq hqt, ← hsw]
  cases decodeSeq s.sw with
  | ok i => exact exec_sameKind h i
  | error e => cases e; rfl

end SameControl

/-- Settles O35, by the three kinds of event: which kind it is, reset, a command or a micro-operation, both
sides read off the same control bits, and each kind keeps the agreement. -/
theorem dataNeverSteersControl : Obligations.DataNeverSteersControl := by
  intro p q s t ⟨hrst, hvalid, hop⟩ h
  have hsw : s.sw = t.sw := h.1
  cases hr : p.rst with
  | true =>
    rw [event_reset s hr, event_reset t (hrst ▸ hr)]
    exact sameControl_resetEvent h
  | false =>
    by_cases hc : s.sw.ph = .idle ∧ p.cmdValid = true
    · obtain ⟨hi, hv⟩ := hc
      rw [event_command hr hv hi, event_command (hrst ▸ hr) (hvalid ▸ hv) (hsw ▸ hi)]
      exact exec_decodeCmd_sameKind h hop
    · exact event_sequencer_sameKind h hr (hrst ▸ hr) hc (by rwa [← hsw, ← hvalid])

/-! ## A step is one event (R9, R57) -/

/-- Without reset, an event is exec of what its word decodes to. -/
theorem event_of_decode {p : InPorts} {s : State} {i : Instr} (hr : p.rst = false)
    (hd : decode (eventWord p s) = .ok i) : event p s = exec i s := by
  simp [event, hr, hd]

/-- The word of an event does not depend on the port samples still to come. -/
@[simp] theorem eventWord_takePorts (p : InPorts) (s : State) :
    eventWord p s.takePorts = eventWord p s := rfl

/-- Taking the port sample changes nothing but `inputs` (log 1). -/
theorem sameControl_takePorts (s : State) :
    sameControl { s.takePorts with inputs := s.inputs } s := by
  simp [sameControl]

/-- Settles O6: `step` is the event of the coming sample on the state without it. -/
theorem stepRunsTheDecodedInstruction : Obligations.StepRunsTheDecodedInstruction := by
  refine ⟨fun s i hr hd => ?_, fun s hr => event_reset s.takePorts hr, fun s => ?_⟩
  · exact event_of_decode hr ((congrArg decode (eventWord_takePorts _ s)).trans hd)
  · exact ⟨takePorts_inputs s, sameControl_takePorts s, rfl⟩

end Sys2Proof.Machine
end

section
/-!
PROOFS of the statements of 10_state.md: the invariant of every run, the frames of the instructions, and
what each event writes to X, OUT, the flags and SW.
-/

namespace Sys2Proof.Machine

/-! ## What an event does, kind by kind

`EventEffect` refines `event_next_cases`: an accepted command is one of the four, each with its own
next state, and every kind says whether a command was accepted. -/

/-- The whole effect of an event that answers a next state, with the condition of its kind. -/
inductive EventEffect (p : InPorts) (s : State) : State → Prop where
  /-- Reset (R139). -/
  | reset (hr : p.rst = true) : EventEffect p s (resetEvent s)
  /-- INIT accepted (R67). -/
  | init (hr : p.rst = false) (hi : s.sw.ph = .idle) (ha : accepts p s = true)
      (hop : p.cmd.op = 0b00) :
      EventEffect p s (s.setX (initState (keyBytes p.cmd.key) (nonceBytes p.cmd.nonce))).markLoaded
  /-- SETCTR accepted (R70). -/
  | setctr (hr : p.rst = false) (hi : s.sw.ph = .idle) (ha : accepts p s = true)
      (hop : p.cmd.op = 0b01) : EventEffect p s (s.setCounter p.cmd.ctr)
  /-- START accepted in a loaded engine (R111, R112). -/
  | start (hr : p.rst = false) (hi : s.sw.ph = .idle) (ha : accepts p s = true)
      (hop : p.cmd.op = 0b10) (hl : s.loaded = true) : EventEffect p s s.beginBlock
  /-- BLOCK accepted (R113). -/
  | block (hr : p.rst = false) (hi : s.sw.ph = .idle) (ha : accepts p s = true)
      (hop : p.cmd.op = 0b11) :
      EventEffect p s
        ((s.setX (initState (keyBytes p.cmd.key) (nonceBytes p.cmd.nonce))).setCounter
          p.cmd.ctr).markLoaded.beginBlock
  /-- No command offered to an idle engine (R94). -/
  | idle (hr : p.rst = false) (ha : accepts p s = false) (hs : s.sw = ⟨.idle, 0, 0⟩) :
      EventEffect p s s
  /-- The COPY step (R88). -/
  | copy (hr : p.rst = false) (ha : accepts p s = false) (hs : s.sw = ⟨.copy, 0, 0⟩) :
      EventEffect p s { s with w := s.x, sw := ⟨.mix, 0, 0⟩ }
  /-- A MIX step (R93). -/
  | mix (hr : p.rst = false) (ha : accepts p s = false) (hp : s.sw.ph = .mix)
      (hd : s.sw.dr.toNat ≤ 9) :
      EventEffect p s { s with w := qrs s.w (group s.sw.g), sw := mixAdvance s.sw }
  /-- The FINAL step (R105). -/
  | final (hr : p.rst = false) (ha : accepts p s = false) (hs : s.sw = ⟨.final, 0, 0⟩) :
      EventEffect p s
        { s with out := finalize s.w s.x, outValid := true, sw := ⟨.idle, 0, 0⟩ }

theorem accepts_eq_false_of_busy {p : InPorts} {s : State} (h : s.sw.ph ≠ .idle) :
    accepts p s = false := by
  rw [Bool.eq_false_iff, ne_eq, accepts_iff]
  exact fun ⟨_, _, hi⟩ => h hi

/-- START accepted answers a next state only when loaded (R112). -/
theorem execStart_next {s t : State} (hi : s.sw.ph = .idle) (h : execStart s = .next t) :
    s.loaded = true ∧ t = s.beginBlock := by
  rw [execStart, whenIdle_idle hi] at h
  split at h
  · next hl => cases h; exact ⟨hl, rfl⟩
  · cases h

/-- An accepted command's next state, by its code (R52). -/
theorem EventEffect.of_command {p : InPorts} {s t : State} (hr : p.rst = false)
    (hv : p.cmdValid = true) (hi : s.sw.ph = .idle) (h : exec (decodeCmd p.cmd) s = .next t) :
    EventEffect p s t := by
  have ha : accepts p s = true := accepts_iff.mpr ⟨hr, hv, hi⟩
  obtain hop | hop | hop | hop := op_cases p.cmd.op
  · rw [decodeCmd_init hop, exec, execInit, whenIdle_idle hi] at h
    cases h; exact .init hr hi ha hop
  · rw [decodeCmd_setctr hop, exec, execSetctr, whenIdle_idle hi] at h
    cases h; exact .setctr hr hi ha hop
  · rw [decodeCmd_start hop] at h
    obtain ⟨hl, rfl⟩ := execStart_next hi h
    exact .start hr hi ha hop hl
  · rw [decodeCmd_block hop, exec, execBlock, whenIdle_idle hi] at h
    cases h; exact .block hr hi ha hop

/-- Every event that answers a next state has one of the nine effects. -/
theorem event_effect {p : InPorts} {s t : State} (h : event p s = .next t) : EventEffect p s t := by
  obtain ⟨hr, rfl⟩ | ⟨hr, hv, hi, h⟩ | ⟨hr, hv, hs, rfl⟩ | ⟨hr, hs, rfl⟩ | ⟨hr, hp, hd, rfl⟩ |
    ⟨hr, hs, rfl⟩ := event_next_cases h
  · exact .reset hr
  · exact .of_command hr hv hi h
  · exact .idle hr (by simp [accepts, hv]) hs
  · exact .copy hr (accepts_eq_false_of_busy (by simp [hs])) hs
  · exact .mix hr (accepts_eq_false_of_busy (by simp [hp])) hp hd
  · exact .final hr (accepts_eq_false_of_busy (by simp [hs])) hs

/-! ## The schedule counted by `SW` (R91, R93) -/

/-- Application number `SW.done` of the schedule uses the group that `G` names (R91). -/
theorem SeqWord.ofNat_done (q : SeqWord) : BitVec.ofNat 3 q.done = q.g := by
  apply BitVec.eq_of_toNat_eq
  have := q.g.isLt
  simp only [SeqWord.done, BitVec.toNat_ofNat]
  omega

/-- A MIX word with a legal `DR` is reachable (R60). -/
theorem SeqWord.reachable_of_mix {q : SeqWord} (hp : q.ph = .mix) (hd : q.dr.toNat ≤ 9) :
    q.reachable = true := by
  simp [SeqWord.reachable, hp, drLegal, hd]

/-- A MIX step completes one more of the 80 quarter rounds, and the last one leads to FINAL (R93). -/
theorem mixAdvance_cases {q : SeqWord} (hd : q.dr.toNat ≤ 9) :
    ((mixAdvance q).ph = .mix ∧ (mixAdvance q).dr.toNat ≤ 9 ∧
      (mixAdvance q).done = q.done + 1 ∧ q.done < 79) ∨
    (mixAdvance q = ⟨.final, 0, 0⟩ ∧ q.done = 79) := by
  by_cases hg : q.g = 7
  · by_cases h9 : q.dr = 9
    · exact .inr ⟨by rw [mixAdvance, if_neg (not_not.mpr hg), if_neg (not_not.mpr h9)],
        by rw [SeqWord.done, hg, h9]; rfl⟩
    · rw [mixAdvance, if_neg (not_not.mpr hg), if_pos h9]
      refine .inl ⟨rfl, ?_, ?_, ?_⟩ <;> simp only [SeqWord.done] <;> bv_omega
  · rw [mixAdvance, if_pos hg]
    refine .inl ⟨rfl, hd, ?_, ?_⟩ <;> simp only [SeqWord.done] <;> bv_omega

/-- Eight applications are a double round (R89, R91). -/
theorem applications_eight_mul (k : Nat) (S : Words16) : applications (8 * k) S = drounds k S := by
  induction k with
  | zero => rfl
  | succ k ih =>
    have hg (j : Nat) : BitVec.ofNat 3 (8 * k + j) = BitVec.ofNat 3 j := by
      apply BitVec.eq_of_toNat_eq
      simp only [BitVec.toNat_ofNat]
      omega
    have h0 := hg 0
    rw [Nat.add_zero] at h0
    simp only [Nat.mul_succ, applications, drounds, dround, ← ih, hg, h0]
    rfl

/-- All 80 applications are ROUNDS (R90). -/
theorem applications_eighty (S : Words16) : applications 80 S = rounds S :=
  applications_eight_mul 10 S

/-! ## Blocks' original states (R71, R114) -/

/-- INITSTATE is the original state of the block with counter 0 (R68, R71). -/
theorem initState_eq_blockState (key : Vector Byte 32) (nonce : Vector Byte 12) :
    initState key nonce = blockState key 0 nonce :=
  (Vector.set_getElem_self (xs := initState key nonce) (i := 12) (by omega)).symm

/-- A second counter replaces the first (R71). -/
theorem blockState_set_counter (key : Vector Byte 32) (c ctr : Word) (nonce : Vector Byte 12) :
    (blockState key c nonce).set 12 ctr = blockState key ctr nonce := by
  simp [blockState]

/-! ## The invariant -/

section Invariant

variable {s t : State}

/-- In an idle engine the invariant speaks of `X` and `OUT` only. -/
theorem inv_of_idle (hsw : t.sw = ⟨.idle, 0, 0⟩)
    (hx : t.loaded = true → ∃ key ctr nonce, t.x = blockState key ctr nonce)
    (ho : t.outValid = true → ∃ key ctr nonce, t.out = blockFn key ctr nonce) : t.Inv where
  swReachable := by rw [hsw]; rfl
  busyLoaded := by simp [hsw]
  loadedState := hx
  mixWork := by simp [hsw]
  finalWork := by simp [hsw]
  validBlock := ho

/-- What a reset leaves meets the invariant, whatever the data registers hold (R28, R29). -/
theorem inv_of_cleared (hsw : t.sw = ⟨.idle, 0, 0⟩) (hl : t.loaded = false)
    (hv : t.outValid = false) : t.Inv :=
  inv_of_idle hsw (by simp [hl]) (by simp [hv])

/-- A busy engine's outputs are not valid, so the invariant speaks of `X` and `W` only (R20). -/
theorem inv_of_busy (hq : t.sw.reachable = true) (hl : t.loaded = true) (hv : t.outValid = false)
    (hx : ∃ key ctr nonce, t.x = blockState key ctr nonce)
    (hm : t.sw.ph = .mix → t.w = applications t.sw.done t.x)
    (hf : t.sw.ph = .final → t.w = rounds t.x) : t.Inv where
  swReachable := hq
  busyLoaded _ := ⟨hl, hv⟩
  loadedState _ := hx
  mixWork := hm
  finalWork := hf
  validBlock := by simp [hv]

/-- The beginning of a block needs only the original state in `X` (R111). -/
theorem inv_beginBlock (hl : s.loaded = true)
    (hx : ∃ key ctr nonce, s.x = blockState key ctr nonce) : s.beginBlock.Inv :=
  inv_of_busy (by rfl) hl rfl hx (by simp) (by simp)

namespace State.Inv

variable (h : s.Inv)

include h

theorem takePorts : s.takePorts.Inv := by
  obtain ⟨hq, hb, hx, hm, hf, ho⟩ := h
  exact ⟨hq, hb, hx, hm, hf, ho⟩

theorem sw_of_idle (hi : s.sw.ph = .idle) : s.sw = ⟨.idle, 0, 0⟩ := by
  rw [SeqWord.eq_of_reachable h.swReachable (by simp [hi]), hi]

theorem setCounter (hi : s.sw.ph = .idle) (ctr : Word) : (s.setCounter ctr).Inv := by
  refine inv_of_idle (h.sw_of_idle hi) (fun hl => ?_) h.validBlock
  obtain ⟨key, c, nonce, hx⟩ := h.loadedState hl
  exact ⟨key, ctr, nonce, by rw [setCounter_x, hx, blockState_set_counter]⟩

theorem copy_step (hs : s.sw = ⟨.copy, 0, 0⟩) :
    ({ s with w := s.x, sw := ⟨.mix, 0, 0⟩ } : State).Inv := by
  obtain ⟨hl, hv⟩ := h.busyLoaded (by simp [hs])
  exact inv_of_busy rfl hl hv (h.loadedState hl) (fun _ => rfl) nofun

/-- The heart of the invariant: a MIX step does the application that `SW` counts (R91, R93). -/
theorem mix_step (hp : s.sw.ph = .mix) (hd : s.sw.dr.toNat ≤ 9) :
    ({ s with w := qrs s.w (group s.sw.g), sw := mixAdvance s.sw } : State).Inv := by
  obtain ⟨hl, hv⟩ := h.busyLoaded (by simp [hp])
  have hw : qrs s.w (group s.sw.g) = applications (s.sw.done + 1) s.x := by
    rw [h.mixWork hp, applications, SeqWord.ofNat_done]
  obtain ⟨hph, hdr, hdone, -⟩ | ⟨hfin, hdone⟩ := mixAdvance_cases hd
  · exact inv_of_busy (SeqWord.reachable_of_mix hph hdr) hl hv (h.loadedState hl)
      (fun _ => hw.trans (by rw [hdone])) (by simp [hph])
  · exact inv_of_busy (by rw [hfin]; rfl) hl hv (h.loadedState hl) (by simp [hfin])
      (fun _ => hw.trans (by rw [hdone, applications_eighty]))

theorem final_step (hs : s.sw = ⟨.final, 0, 0⟩) :
    ({ s with out := finalize s.w s.x, outValid := true, sw := ⟨.idle, 0, 0⟩ } : State).Inv := by
  obtain ⟨hl, -⟩ := h.busyLoaded (by simp [hs])
  obtain ⟨key, ctr, nonce, hx⟩ := h.loadedState hl
  refine inv_of_idle rfl h.loadedState fun _ => ⟨key, ctr, nonce, ?_⟩
  rw [h.finalWork (by rw [hs]), hx, blockFn]

/-- Every event keeps the invariant. -/
theorem of_event {p : InPorts} (he : event p s = .next t) : t.Inv := by
  cases event_effect he with
  | reset => exact inv_of_cleared rfl rfl rfl
  | init _ hi =>
    exact inv_of_idle (h.sw_of_idle hi) (fun _ => ⟨_, 0, _, initState_eq_blockState _ _⟩) h.validBlock
  | setctr _ hi => exact h.setCounter hi _
  | start _ _ _ _ hl => exact inv_beginBlock hl (h.loadedState hl)
  | block => exact inv_beginBlock rfl ⟨_, _, _, rfl⟩
  | idle => exact h
  | copy _ _ hs => exact h.copy_step hs
  | mix _ _ hp hd => exact h.mix_step hp hd
  | final _ _ hs => exact h.final_step hs

end State.Inv

end Invariant

/-- Settles O42: a step is an event on the state without its port sample, and each of the nine effects of
an event keeps the invariant. -/
theorem stepKeepsTheInvariant : Obligations.StepKeepsTheInvariant :=
  fun _ _ h hs => h.takePorts.of_event hs

/-- Settles O41: after reset the engine is idle with nothing loaded and no valid output. -/
theorem resetMeetsTheInvariant : Obligations.ResetMeetsTheInvariant :=
  inv_of_cleared rfl rfl rfl

/-- Words 0 to 3 of a block's original state are the constant, whatever key, counter and nonce are (R14). -/
theorem blockState_constants (key : Vector Byte 32) (ctr : Word) (nonce : Vector Byte 12) :
    (blockState key ctr nonce)[0] = constWord 0 ∧ (blockState key ctr nonce)[1] = constWord 1 ∧
    (blockState key ctr nonce)[2] = constWord 2 ∧ (blockState key ctr nonce)[3] = constWord 3 := by
  simp [blockState, initState]

/-- The constant words as literals (R14, R69). -/
theorem constWord_literals :
    constWord 0 = 0x61707865 ∧ constWord 1 = 0x3320646e ∧ constWord 2 = 0x79622d32 ∧
    constWord 3 = 0x6b206574 := by
  decide

/-- Settles O44: a loaded X is some block's original state. -/
theorem constantWordsStayOnceLoaded : Obligations.ConstantWordsStayOnceLoaded := by
  intro s h hl
  obtain ⟨key, ctr, nonce, hx⟩ := h.loadedState hl
  obtain ⟨b0, b1, b2, b3⟩ := blockState_constants key ctr nonce
  obtain ⟨c0, c1, c2, c3⟩ := constWord_literals
  rw [hx]
  exact ⟨b0.trans c0, b1.trans c1, b2.trans c2, b3.trans c3⟩

/-! ## Frames of the instructions -/

/-- What a micro-operation answers: itself, a copy, a quarter round, or the block. -/
theorem exec_micro_cases {i : Instr} {s t : State} (hi : isCommand i = false)
    (h : exec i s = .next t) :
    (i = .idle ∧ t = s) ∨ (i = .copy ∧ t = (s.setW s.x).setSW .mix 0 0) ∨
    (i ≠ .idle ∧ i ≠ .final ∧ ∃ u ph dr g, t = quarterStep s u ph dr g) ∨
    (i = .final ∧ t = ((s.setOut (finalize s.w s.x)).raiseOutValid).setSW .idle 0 0) := by
  cases i with
  | init | setctr | start | block => simp [isCommand] at hi
  | idle => cases h; exact .inl ⟨rfl, rfl⟩
  | copy => cases h; exact .inr (.inl ⟨rfl, rfl⟩)
  | final => cases h; exact .inr (.inr (.inr ⟨rfl, rfl⟩))
  | qrC0 | qrC1 | qrC2 | qrC3 | qrD0 | qrD1 | qrD2 =>
    cases h; exact .inr (.inr (.inl ⟨nofun, nofun, _, _, _, _, rfl⟩))
  | qrD3 dr =>
    refine .inr (.inr (.inl ⟨nofun, nofun, ?_⟩))
    rw [exec, execQrD3] at h
    split at h <;> (cases h; exact ⟨_, _, _, _, rfl⟩)

/-- Settles O23, by what a micro-operation can answer. -/
theorem microOperationFrame : Obligations.MicroOperationFrame := by
  intro i s t hi h
  obtain ⟨rfl, rfl⟩ | ⟨rfl, rfl⟩ | ⟨hidle, hfinal, u, ph, dr, g, rfl⟩ | ⟨rfl, rfl⟩ :=
    exec_micro_cases hi h
  · simp
  · simp
  · simp [hidle, hfinal]
  · simp

/-- A command is held, which changes nothing, or has its effect (R50). -/
theorem whenIdle_next {s t : State} {r : Host.Outcome State Fault Refusal}
    (h : whenIdle s r = .next t) : t = s ∨ r = .next t := by
  by_cases hi : s.sw.ph = .idle
  · rw [whenIdle_idle hi] at h; exact .inr h
  · rw [whenIdle_busy hi] at h; cases h; exact .inl rfl

/-- What a command answers: the state as it was, when held, or its effect. -/
theorem exec_command_cases {i : Instr} {s t : State} (hi : isCommand i = true)
    (h : exec i s = .next t) :
    t = s ∨
    (∃ key nonce, i = .init key nonce ∧
      t = (s.setX (initState (keyBytes key) (nonceBytes nonce))).markLoaded) ∨
    (∃ ctr, i = .setctr ctr ∧ t = s.setCounter ctr) ∨
    (i = .start ∧ t = s.beginBlock) ∨
    (∃ key ctr nonce, i = .block key ctr nonce ∧
      t = ((s.setX (initState (keyBytes key) (nonceBytes nonce))).setCounter
        ctr).markLoaded.beginBlock) := by
  cases i with
  | init key nonce =>
    refine (whenIdle_next h).imp_right fun h => .inl ⟨key, nonce, rfl, ?_⟩
    cases h; rfl
  | setctr ctr =>
    refine (whenIdle_next h).imp_right fun h => .inr (.inl ⟨ctr, rfl, ?_⟩)
    cases h; rfl
  | start =>
    refine (whenIdle_next h).imp_right fun h => .inr (.inr (.inl ⟨rfl, ?_⟩))
    split at h
    · cases h; rfl
    · cases h
  | block key ctr nonce =>
    refine (whenIdle_next h).imp_right fun h => .inr (.inr (.inr ⟨key, ctr, nonce, rfl, ?_⟩))
    cases h; rfl
  | idle | copy | qrC0 | qrC1 | qrC2 | qrC3 | qrD0 | qrD1 | qrD2 | qrD3 | final =>
    simp [isCommand] at hi

/-- SETCTR spares every word but word 12 (R70). -/
theorem setCounter_x_getElem (s : State) (ctr : Word) {j : Fin 16} (hj : j ≠ 12) :
    (s.setCounter ctr).x[j] = s.x[j] :=
  Vector.getElem_set_ne (by decide) j.isLt fun h => hj (Fin.ext h.symm)

/-- Settles O24, by what a command can answer. -/
theorem commandFrame : Obligations.CommandFrame := by
  intro i s t hi h
  obtain rfl | ⟨key, nonce, rfl, rfl⟩ | ⟨ctr, rfl, rfl⟩ | ⟨rfl, rfl⟩ | ⟨key, ctr, nonce, rfl, rfl⟩ :=
    exec_command_cases hi h
  · simp
  · simp
  · have hx : ∀ j : Fin 16, j ≠ 12 → (s.setCounter ctr).x[j] = s.x[j] :=
      fun _ => setCounter_x_getElem s ctr
    refine ⟨rfl, rfl, rfl, rfl, nofun, ?_, fun _ _ => ⟨rfl, rfl⟩, nofun⟩
    rintro _ ⟨⟩
    exact ⟨rfl, hx⟩
  · simp
  · simp

/-! ## What an event writes to X, LOADED, OUT and OUT_VALID -/

/-- Settles O32: of the effects without reset, only those of INIT, SETCTR and BLOCK write X. -/
theorem onlyCommandsAndResetWriteX : Obligations.OnlyCommandsAndResetWriteX := by
  intro p s t h hr hn
  cases event_effect h with
  | reset hr' => simp [hr] at hr'
  | init _ _ ha hop | setctr _ _ ha hop | block _ _ ha hop => simp [ha, hop] at hn
  | start | idle | copy | mix | final => rfl

/-- A busy engine accepts nothing, so its events spare X (R17). -/
theorem event_x_of_busy {p : InPorts} {s t : State} (hb : s.busy = true) (hr : p.rst = false)
    (h : event p s = .next t) : t.x = s.x :=
  onlyCommandsAndResetWriteX p s t h hr
    (.inl (accepts_eq_false_of_busy ((busy_eq_true s).mp hb)))

/-- A run that answers a next state answers one at its first event. -/
theorem runEvents_cons_next {p : InPorts} {ps : List InPorts} {s t : State}
    (h : runEvents (p :: ps) s = .next t) :
    ∃ u, event p s = .next u ∧ runEvents ps u = .next t := by
  rw [runEvents] at h
  cases he : event p s with
  | next u => rw [he] at h; exact ⟨u, rfl, h⟩
  | fault r => cases r
  | refused r => rw [he] at h; cases h

theorem noReset_cons {p : InPorts} {ps : List InPorts} :
    noReset (p :: ps) = true ↔ p.rst = false ∧ noReset ps = true := by
  simp [noReset]

/-- Settles O31, the run by induction on its events: each begins in a busy engine. -/
theorem xIsFixedWhileBusy : Obligations.XIsFixedWhileBusy := by
  refine ⟨fun p s t hb hr h => event_x_of_busy hb hr h, fun ps => ?_⟩
  induction ps with
  | nil =>
    intro s t _ _ h
    cases h
    rfl
  | cons p ps ih =>
    intro s t hn hbusy h
    obtain ⟨hr, hn⟩ := noReset_cons.mp hn
    obtain ⟨u, hu, hrun⟩ := runEvents_cons_next h
    have hb : s.busy = true := by
      obtain ⟨v, hv, hb⟩ := hbusy 0 (Nat.succ_pos _)
      cases hv
      exact hb
    have hbusy' : ∀ k, k < ps.length → ∃ v, runEvents (ps.take k) u = .next v ∧ v.busy = true := by
      intro k hk
      obtain ⟨v, hv, hb⟩ := hbusy (k + 1) (Nat.succ_lt_succ hk)
      rw [List.take_succ_cons, runEvents_cons hu] at hv
      exact ⟨v, hv, hb⟩
    exact (ih u t hn hbusy' hrun).trans (event_x_of_busy hb hr hu)

/-- Settles O33, effect by effect. -/
theorem loadedFollowsInitAndBlock : Obligations.LoadedFollowsInitAndBlock := by
  intro p s t h
  cases event_effect h with
  | reset hr => simp [hr]
  | init hr _ ha hop | setctr hr _ ha hop | block hr _ ha hop => simp [hr, ha, hop]
  | start hr _ ha hop hl => simp [hr, ha, hop]
  | idle hr ha | copy hr ha | mix hr ha | final hr ha => simp [hr, ha]

/-- Settles O34, effect by effect: START and BLOCK clear OUT_VALID as they begin the block, FINAL raises it
as it writes OUT. -/
theorem outValidFollowsTheBlock : Obligations.OutValidFollowsTheBlock := by
  intro p s t h
  cases event_effect h with
  | reset hr => simp [hr]
  | init hr hi ha hop | setctr hr hi ha hop | start hr hi ha hop | block hr hi ha hop =>
    simp [hr, hi, ha, hop]
  | idle hr ha hs | copy hr ha hs | final hr ha hs => simp [hr, ha, hs]
  | mix hr ha hp => simp [hr, ha, hp]

/-! ## The sequencer word -/

/-- Settles O26, effect by effect. -/
theorem sequencerWordAdvancesOnlyAsStated : Obligations.SequencerWordAdvancesOnlyAsStated := by
  intro p s t h
  cases event_effect h with
  | reset hr => simp [hr]
  | init hr _ ha hop | setctr hr _ ha hop | start hr _ ha hop | block hr _ ha hop =>
    simp [hr, ha, hop]
  | idle hr ha hs | copy hr ha hs | final hr ha hs => simp [hr, ha, hs]
  | mix hr ha hp => simp [hr, ha, hp, mixAdvance]

/-- A busy engine at a reachable word takes one of its remaining steps at an event without reset (R93). -/
theorem event_stepsLeft {p : InPorts} {s : State} (hr : p.rst = false)
    (hq : s.sw.reachable = true) (hb : s.sw.stepsLeft ≠ 0) :
    ∃ t, event p s = .next t ∧ t.sw.reachable = true ∧ t.sw.stepsLeft + 1 = s.sw.stepsLeft := by
  cases hp : s.sw.ph with
  | idle => simp [SeqWord.stepsLeft, hp] at hb
  | copy =>
    have hs : s.sw = ⟨.copy, 0, 0⟩ := hp ▸ SeqWord.eq_of_reachable hq (by simp [hp])
    exact ⟨_, event_copy hr hs, rfl, by rw [hs]; rfl⟩
  | mix =>
    have hd := SeqWord.dr_le_of_reachable hq hp
    refine ⟨_, event_mix hr hp hd, ?_⟩
    obtain ⟨hph, hdr, hdone, hlt⟩ | ⟨hfin, hdone⟩ := mixAdvance_cases hd
    · refine ⟨SeqWord.reachable_of_mix hph hdr, ?_⟩
      simp only [SeqWord.stepsLeft, hp, hph, hdone]
      omega
    · refine ⟨by rw [hfin]; rfl, ?_⟩
      simp only [SeqWord.stepsLeft, hp, hfin, hdone]
  | final =>
    have hs : s.sw = ⟨.final, 0, 0⟩ := hp ▸ SeqWord.eq_of_reachable hq (by simp [hp])
    exact ⟨_, event_final hr hs, rfl, by rw [hs]; rfl⟩

/-- A run without reset, no longer than the computation, takes as many of the remaining steps as it has
events (R93, R119). -/
theorem runEvents_stepsLeft {ps : List InPorts} {s : State} (hn : noReset ps = true)
    (hq : s.sw.reachable = true) (hlen : ps.length ≤ s.sw.stepsLeft) :
    ∃ t, runEvents ps s = .next t ∧ t.sw.reachable = true ∧
      t.sw.stepsLeft + ps.length = s.sw.stepsLeft := by
  induction ps generalizing s with
  | nil => exact ⟨s, rfl, hq, rfl⟩
  | cons p ps ih =>
    obtain ⟨hr, hn⟩ := noReset_cons.mp hn
    rw [List.length_cons] at hlen ⊢
    obtain ⟨u, hu, huq, hul⟩ := event_stepsLeft (p := p) hr hq (by omega)
    obtain ⟨t, ht, htq, htl⟩ := ih (s := u) hn huq (by omega)
    exact ⟨t, (runEvents_cons hu).trans ht, htq, by omega⟩

/-- A reachable word's number, by the steps left: COPY, the 80 MIX words upward, FINAL, IDLE (R56, R60). -/
theorem SeqWord.toNat_toBits_of_reachable {q : SeqWord} (hq : q.reachable = true) :
    q.toBits.toNat =
      if q.stepsLeft = 82 then 0x080
      else if 2 ≤ q.stepsLeft then 0x151 - q.stepsLeft
      else if q.stepsLeft = 1 then 0x180 else 0 := by
  obtain ⟨p, d, g⟩ := q
  revert g
  revert d
  cases p <;> decide

/-- Settles O27: after `k` of the 82 steps `82 - k` are left, and the steps left are the word's number. -/
theorem sequencerWordSequenceIsFixed : Obligations.SequencerWordSequenceIsFixed := by
  intro ps s hs hn hlen
  have hleft : s.sw.stepsLeft = 82 := by rw [hs]; rfl
  obtain ⟨t, ht, htq, htl⟩ := runEvents_stepsLeft hn (by rw [hs]; rfl) (hlen.trans_eq hleft.symm)
  refine ⟨t, ht, ?_⟩
  rw [SeqWord.toNat_toBits_of_reachable htq]
  split_ifs <;> omega

/-! ## Noninterference of the old W (R27) -/

/-- Settles O36: the COPY step overwrites W, so the runs meet after their first event. -/
theorem earlierWorkingStateInfluencesNothing : Obligations.EarlierWorkingStateInfluencesNothing := by
  intro p ps s W hs hr
  rw [runEvents_cons (event_copy hr hs), runEvents_cons (event_copy (s := { s with w := W }) hr hs)]

/-! ## The output ports (R30) -/

/-- A number that fits into `w` bits is read back from them; at every width, so that no `2 ^ 512` is
evaluated. -/
theorem toNat_ofNat_of_lt {w n : Nat} (h : n < 2 ^ w) : (BitVec.ofNat w n).toNat = n := by
  rw [BitVec.toNat_ofNat, Nat.mod_eq_of_lt h]

/-- The port holds the number of the 64 bytes: none is cut off (R39). -/
theorem packBlock_toNat (b : OutBytes) : (packBlock b).toNat = bytesToNat b.toList := by
  have h := bytesToNat_lt b.toList
  rw [Vector.length_toList] at h
  refine toNat_ofNat_of_lt ?_
  rwa [show 512 = 8 * 64 from rfl, Nat.pow_mul]

/-- Byte `j` of the port is byte `j` of the block (R39). -/
theorem packBlock_byte (b : OutBytes) (j : Fin 64) :
    (packBlock b).extractLsb' (8 * j.val) 8 = b[j] := by
  apply BitVec.eq_of_toNat_eq
  calc ((packBlock b).extractLsb' (8 * j.val) 8).toNat
      = bytesToNat b.toList / 256 ^ j.val % 256 := by
        rw [BitVec.extractLsb'_toNat, packBlock_toNat, Nat.shiftRight_eq_div_pow, Nat.pow_mul]
    _ = b[j].toNat := by
        rw [bytesToNat_digit _ _ (by simp)]
        simp

/-- Settles O57. -/
theorem outputPortsShowTheState : Obligations.OutputPortsShowTheState := by
  intro s
  refine ⟨busy_eq_true s, cmdReady_eq_true s, rfl, fun hv look j => ?_⟩
  rw [State.outBlock, if_pos hv, packBlock_byte]

end Sys2Proof.Machine
end

section
/-!
PROOFS of the statements of 20_memory.md: the byte arrays and their ports (R36, R37, R40), and the order of
events (R45).
-/

namespace Sys2Proof.Machine

/-! ## Events in order (R45)

One case of a run of steps for each answer a step can give. -/

theorem run_succ_of_next {s t : State} (h : step s = .next t) (k : Nat) :
    Host.Core.run core (k + 1) s = Host.Core.run core k t := by
  simp only [Host.Core.run, show core.step s = .next t from h]

theorem run_succ_of_refused {s : State} {r : Refusal} (h : step s = .refused r) (k : Nat) :
    Host.Core.run core (k + 1) s = .refused r := by
  simp only [Host.Core.run, show core.step s = .refused r from h]

theorem runEvents_cons_refused {p : InPorts} {s : State} {r : Refusal} (h : event p s = .refused r)
    (ps : List InPorts) : runEvents (p :: ps) s = .refused r := by
  simp only [runEvents, h]

/-- A step under a waiting sample is that sample's event on the state without it (log 1). -/
theorem step_inputs_cons (p : InPorts) (l : List InPorts) (s : State) :
    step { s with inputs := p :: l } = event p { s with inputs := l } := rfl

/-- Settles O7, by induction on the samples: the first step is the first sample's event, and no event sees
how many samples still wait. -/
theorem stepsAreTheEventsInOrder : Obligations.StepsAreTheEventsInOrder := by
  intro ps rest s
  induction ps generalizing s with
  | nil => rfl
  | cons p ps ih =>
    have hstep := step_inputs_cons p (ps ++ rest) s
    have hevent := event_inputs p s rest
    rw [event_inputs] at hstep
    cases he : event p s with
    | next t =>
      rw [he] at hstep hevent
      exact (run_succ_of_next hstep ps.length).trans ((ih t).trans (runEvents_cons hevent).symm)
    | fault r => cases r
    | refused r =>
      rw [he] at hstep hevent
      exact (run_succ_of_refused hstep ps.length).trans (runEvents_cons_refused hevent ps).symm

/-! ## Byte arrays (R36, R37) -/

section MemWrite

variable {n : Nat} (A : Vector Byte n) (off : Nat) (v : Word) (h : off + 4 ≤ n)

/-- The four bytes of a written word stand at its offset, least significant first (R37). -/
theorem memWrite_getElem_own :
    (memWrite A off v h)[off] = wordByte v 0 ∧ (memWrite A off v h)[off + 1] = wordByte v 1 ∧
    (memWrite A off v h)[off + 2] = wordByte v 2 ∧ (memWrite A off v h)[off + 3] = wordByte v 3 := by
  simp [memWrite]

/-- A MemWrite touches no byte outside its four (R37). -/
theorem memWrite_getElem_outside {j : Nat} (hj : j < n) (hout : j < off ∨ off + 4 ≤ j) :
    (memWrite A off v h)[j] = A[j] := by
  simp only [memWrite, Vector.getElem_set]
  rw [if_neg (by omega), if_neg (by omega), if_neg (by omega), if_neg (by omega)]

/-- A read of what was written gives it back (R36, R37). -/
theorem memRead_memWrite : memRead (memWrite A off v h) off h = v := by
  obtain ⟨b0, b1, b2, b3⟩ := memWrite_getElem_own A off v h
  rw [memRead, b0, b1, b2, b3, append_wordByte]

end MemWrite

/-- Settles O54, clause by clause: the number of four bytes put together, the bytes a MemWrite leaves, the
two examples. -/
theorem memoryAccessIsLittleEndian : Obligations.MemoryAccessIsLittleEndian := by
  refine ⟨fun n A off h => toNat_append4 _ _ _ _, fun n A off v h => ?_, by decide, by decide⟩
  obtain ⟨b0, b1, b2, b3⟩ := memWrite_getElem_own A off v h
  exact ⟨b0, b1, b2, b3, fun _ => memWrite_getElem_outside A off v h, memRead_memWrite A off v h⟩

/-! ## Ports (R39, R40) -/

/-- Neighbouring bytes of a number put together are its 32-bit slice. -/
theorem append_bytes_eq_slice {w : Nat} (x : BitVec w) (b : Nat) :
    x.extractLsb' (b + 24) 8 ++ x.extractLsb' (b + 16) 8 ++ x.extractLsb' (b + 8) 8 ++
      x.extractLsb' b 8 = x.extractLsb' b 32 := by
  rw [BitVec.extractLsb'_append_extractLsb'_eq_extractLsb' (by omega),
    BitVec.extractLsb'_append_extractLsb'_eq_extractLsb' (by omega),
    BitVec.extractLsb'_append_extractLsb'_eq_extractLsb' (by omega)]

/-- A word read at `off` from bytes that lie on a port as R39 lays them is the port's slice at bit
`8 * off` (R40). -/
theorem memRead_ofFn_bytes {w n : Nat} (x : BitVec w) (off : Nat) (h : off + 4 ≤ n) :
    memRead (Vector.ofFn fun j : Fin n => x.extractLsb' (8 * j.val) 8) off h =
      x.extractLsb' (8 * off) 32 := by
  simp only [memRead, Vector.getElem_ofFn, Nat.mul_add]
  exact append_bytes_eq_slice x (8 * off)

theorem keyWord_keyBytes (key : BitVec 256) (i : Fin 8) :
    keyWord (keyBytes key) i = key.extractLsb' (32 * i.val) 32 := by
  rw [keyWord, keyBytes, memRead_ofFn_bytes, ← Nat.mul_assoc]

theorem nonceWord_nonceBytes (nonce : BitVec 96) (i : Fin 3) :
    nonceWord (nonceBytes nonce) i = nonce.extractLsb' (32 * i.val) 32 := by
  rw [nonceWord, nonceBytes, memRead_ofFn_bytes, ← Nat.mul_assoc]

/-- Taken apart to bytes and read back, the constant's words are the four it was made of (R69). -/
theorem constWord_eq_sigmaWords (i : Fin 4) : constWord i = sigmaWords[i] := by
  obtain ⟨c0, c1, c2, c3⟩ := constWord_literals
  fin_cases i
  exacts [c0, c1, c2, c3]

/-- Settles O56: the words by the port's layout, the bytes by the layout itself. -/
theorem operandWordsArePortSlices : Obligations.OperandWordsArePortSlices :=
  ⟨keyWord_keyBytes, nonceWord_nonceBytes, constWord_eq_sigmaWords,
    fun _ j => Vector.getElem_ofFn j.isLt, fun _ j => Vector.getElem_ofFn j.isLt⟩

end Sys2Proof.Machine
end

section
/-!
PROOFS of the statements of 30_encoding.md: decoder and encoder (R52, R56, R57, R60), which ports an event
looks at (R50, R53), the lines of a trace (R61, R62), and the result on its port (R55).
-/

namespace Sys2Proof.Machine

/-! ## The MIX words (R56, R57)

Everything about the eight QR micro-operations at once, by the `G` that selects them. -/

/-- A MIX word with a legal `DR` is not reserved (R60). -/
theorem decodeSeq_mix {dr : BitVec 4} (g : BitVec 3) (h : drLegal dr = true) :
    decodeSeq ⟨.mix, dr, g⟩ = .ok (decodeMix g dr) :=
  decodeSeq_reachable h

/-- The word `10 dr g` is read back, `DR` at every legal value (R57). -/
theorem decode_mixWord {dr : BitVec 4} (g : BitVec 3) (h : drLegal dr = true) :
    decode (.seq (0b10#2 ++ dr ++ g)) = .ok (decodeMix g dr) :=
  (decode_seq_toBits ⟨.mix, dr, g⟩).trans (decodeSeq_mix g h)

theorem encode_decodeMix (g : BitVec 3) (dr : BitVec 4) :
    encode (decodeMix g dr) = .seq (SeqWord.toBits ⟨.mix, dr, g⟩) := by
  obtain ⟨n⟩ := g
  fin_cases n <;> rfl

theorem wf_decodeMix (g : BitVec 3) (dr : BitVec 4) : (decodeMix g dr).wf = drLegal dr := by
  obtain ⟨n⟩ := g
  fin_cases n <;> rfl

/-- Settles O1, by the instruction: a command's code and ports, and the words of IDLE, COPY and FINAL, are
read back by evaluation; a QR micro-operation's word is the MIX word with its own `G`. -/
theorem decodeOfEncodeIsIdentity : Obligations.DecodeOfEncodeIsIdentity := by
  intro i hwf
  cases i with
  | init | setctr | start | block => rfl
  | idle | copy | final => rfl
  | qrC0 => exact decode_mixWord 0 hwf
  | qrC1 => exact decode_mixWord 1 hwf
  | qrC2 => exact decode_mixWord 2 hwf
  | qrC3 => exact decode_mixWord 3 hwf
  | qrD0 => exact decode_mixWord 4 hwf
  | qrD1 => exact decode_mixWord 5 hwf
  | qrD2 => exact decode_mixWord 6 hwf
  | qrD3 => exact decode_mixWord 7 hwf

/-- A sequencer word that decodes is not reserved (R60). -/
theorem reachable_of_decodeSeq_ok {q : SeqWord} {i : Instr} (h : decodeSeq q = .ok i) :
    q.reachable = true := by
  cases hq : q.reachable with
  | true => rfl
  | false => rw [decodeSeq_reserved hq] at h; cases h

/-- The reachable words by phase: one each outside MIX, in MIX every legal `DR` and every `G` (R60). -/
theorem SeqWord.reachable_cases {q : SeqWord} (h : q.reachable = true) :
    q = ⟨.idle, 0, 0⟩ ∨ q = ⟨.copy, 0, 0⟩ ∨ q = ⟨.final, 0, 0⟩ ∨
    ∃ dr g, drLegal dr = true ∧ q = ⟨.mix, dr, g⟩ := by
  obtain ⟨ph, dr, g⟩ := q
  cases ph with
  | idle => exact .inl (SeqWord.eq_of_reachable h nofun)
  | copy => exact .inr (.inl (SeqWord.eq_of_reachable h nofun))
  | final => exact .inr (.inr (.inl (SeqWord.eq_of_reachable h nofun)))
  | mix => exact .inr (.inr (.inr ⟨dr, g, h, rfl⟩))

/-- What a sequencer word decodes to is well formed and encodes back to the word (R57, R60). -/
theorem wf_and_encode_of_decodeSeq_ok {q : SeqWord} {i : Instr} (h : decodeSeq q = .ok i) :
    i.wf = true ∧ encode i = .seq q.toBits := by
  obtain rfl | rfl | rfl | ⟨dr, g, hdr, rfl⟩ :=
    SeqWord.reachable_cases (reachable_of_decodeSeq_ok h)
  · cases h; exact ⟨rfl, rfl⟩
  · cases h; exact ⟨rfl, rfl⟩
  · cases h; exact ⟨rfl, rfl⟩
  · rw [decodeSeq_mix g hdr] at h
    cases h
    exact ⟨(wf_decodeMix g dr).trans hdr, encode_decodeMix g dr⟩

/-- A command encodes to its own code, with 0 on the ports it does not use (R52, R53). -/
theorem encode_decodeCmd (c : CmdWord) :
    ∃ d : CmdWord, encode (decodeCmd c) = .cmd d ∧ d.op = c.op ∧ decodeCmd d = decodeCmd c := by
  obtain h | h | h | h := op_cases c.op
  · rw [decodeCmd_init h]; exact ⟨_, rfl, h.symm, rfl⟩
  · rw [decodeCmd_setctr h]; exact ⟨_, rfl, h.symm, rfl⟩
  · rw [decodeCmd_start h]; exact ⟨_, rfl, h.symm, rfl⟩
  · rw [decodeCmd_block h]; exact ⟨_, rfl, h.symm, rfl⟩

/-- Every code is a command whose operands are legal at every value (R59). -/
theorem wf_decodeCmd (c : CmdWord) : (decodeCmd c).wf = true := by
  obtain h | h | h | h := op_cases c.op
  · rw [decodeCmd_init h]; rfl
  · rw [decodeCmd_setctr h]; rfl
  · rw [decodeCmd_start h]; rfl
  · rw [decodeCmd_block h]; rfl

/-- Settles O2: a sequencer word by what it can decode to, a command by its code. -/
theorem encodeOfDecodeIsIdentity : Obligations.EncodeOfDecodeIsIdentity := by
  refine ⟨fun w i h => ?_, fun c => ⟨wf_decodeCmd c, encode_decodeCmd c⟩⟩
  have hw := wf_and_encode_of_decodeSeq_ok (q := .ofBits w) h
  rwa [SeqWord.toBits_ofBits] at hw

/-- Settles O3: each word is decoded by evaluation. -/
theorem writtenWordsDecode : Obligations.WrittenWordsDecode :=
  ⟨fun _ _ _ => ⟨rfl, rfl, rfl, rfl⟩, rfl, rfl, rfl, rfl, rfl, rfl, rfl⟩

/-! ## Reachable words (R60) -/

/-- The words that decode are those that are not reserved (R60, log 6). -/
theorem decodes_iff_reachable (w : BitVec 9) :
    (∃ i, decode (.seq w) = .ok i) ↔ (SeqWord.ofBits w).reachable = true :=
  ⟨fun ⟨_, h⟩ => reachable_of_decodeSeq_ok h, fun h => ⟨_, decodeSeq_reachable h⟩⟩

/-- The reachable words by number: IDLE, COPY, FINAL, and the 80 MIX words in a row (R56, R60). -/
theorem SeqWord.reachable_ofBits_iff : ∀ w : BitVec 9, (SeqWord.ofBits w).reachable = true ↔
    (w = 0x000 ∨ w = 0x080 ∨ w = 0x180 ∨ (0x100 ≤ w.toNat ∧ w.toNat ≤ 0x14f)) := by
  decide

/-- The reachable words as a set of numbers: three, and an interval of 80 (R56, R60). -/
theorem SeqWord.toFinset_filter_reachable :
    ((List.finRange 512).filter fun w => (SeqWord.ofBits (BitVec.ofFin w)).reachable).toFinset =
      {0x000, 0x080, 0x180} ∪ Finset.Icc 0x100 0x14f := by
  ext w
  rw [List.mem_toFinset, List.mem_filter, SeqWord.reachable_ofBits_iff]
  simp only [List.mem_finRange, true_and, Finset.mem_union, Finset.mem_insert,
    Finset.mem_singleton, Finset.mem_Icc, or_assoc, ← BitVec.toFin_inj]
  exact Iff.rfl

/-- There are 83 reachable words (R60). -/
theorem SeqWord.length_filter_reachable :
    ((List.finRange 512).filter fun w => (SeqWord.ofBits (BitVec.ofFin w)).reachable).length = 83 := by
  have hdisj : Disjoint ({0x000, 0x080, 0x180} : Finset (Fin 512)) (Finset.Icc 0x100 0x14f) := by
    simp
  rw [← List.toFinset_card_of_nodup ((List.nodup_finRange 512).filter _), toFinset_filter_reachable,
    Finset.card_union_of_disjoint hdisj, Fin.card_Icc]
  rfl

theorem SeqWord.stepsLeft_le (q : SeqWord) : q.stepsLeft ≤ 82 := by
  obtain ⟨ph, dr, g⟩ := q
  cases ph <;> simp only [SeqWord.stepsLeft] <;> omega

/-- No two reachable words have the same number of steps left (R93). -/
theorem SeqWord.eq_of_stepsLeft_eq {q r : SeqWord} (hq : q.reachable = true)
    (hr : r.reachable = true) (h : q.stepsLeft = r.stepsLeft) : q = r := by
  have hbits : q.toBits = r.toBits := BitVec.eq_of_toNat_eq <| by
    rw [SeqWord.toNat_toBits_of_reachable hq, SeqWord.toNat_toBits_of_reachable hr, h]
  rw [← SeqWord.ofBits_toBits q, hbits, SeqWord.ofBits_toBits]

/-- No step is left only in IDLE (R93). -/
theorem SeqWord.eq_idle_of_stepsLeft {q : SeqWord} (hq : q.reachable = true)
    (h : q.stepsLeft = 0) : q = ⟨.idle, 0, 0⟩ :=
  SeqWord.eq_of_stepsLeft_eq hq rfl h

theorem SeqWord.stepsLeft_of_idle {q : SeqWord} (h : q.ph = .idle) : q.stepsLeft = 0 := by
  rw [SeqWord.stepsLeft, h]

/-- No event leads from a reachable word to a reserved one (R60). -/
theorem event_reachable {p : InPorts} {s t : State} (hq : s.sw.reachable = true)
    (h : event p s = .next t) : t.sw.reachable = true := by
  cases event_effect h with
  | reset | start | block | copy | final => rfl
  | init | setctr | idle => exact hq
  | mix _ _ _ hd =>
    obtain ⟨hph, hdr, -⟩ | ⟨hfin, -⟩ := mixAdvance_cases hd
    · exact SeqWord.reachable_of_mix hph hdr
    · exact congrArg SeqWord.reachable hfin

theorem noReset_replicate_quietPorts (n : Nat) : noReset (List.replicate n quietPorts) = true := by
  simp [noReset]

/-- A BLOCK and the right number of quiet events lead from reset to any reachable word (R60, R93). -/
theorem runEvents_reset_reaches {q : SeqWord} (hq : q.reachable = true) :
    ∃ ps t, runEvents ps State.reset = .next t ∧ t.sw = q := by
  obtain ⟨s, hs, hsw⟩ : ∃ s, event (offer ⟨0b11, 0, 0, 0⟩) State.reset = .next s ∧
      s.sw = ⟨.copy, 0, 0⟩ := ⟨_, rfl, rfl⟩
  have hle := SeqWord.stepsLeft_le q
  have hleft : s.sw.stepsLeft = 82 := by rw [hsw]; rfl
  have hlen : (List.replicate (82 - q.stepsLeft) quietPorts).length = 82 - q.stepsLeft :=
    List.length_replicate
  obtain ⟨t, ht, htq, htl⟩ := runEvents_stepsLeft (s := s)
    (noReset_replicate_quietPorts (82 - q.stepsLeft)) (by rw [hsw]; rfl) (by omega)
  exact ⟨_, t, (runEvents_cons hs).trans ht, SeqWord.eq_of_stepsLeft_eq htq hq (by omega)⟩

/-- Settles O4: the words by number, their count by those numbers, a run to each of them by the steps it has
left, and no way out of them by the effects of an event. -/
theorem reservedWordsAreUnreachableAndRefused :
    Obligations.ReservedWordsAreUnreachableAndRefused := by
  refine ⟨fun w => (decodes_iff_reachable w).trans (SeqWord.reachable_ofBits_iff w),
    SeqWord.length_filter_reachable, fun q hq => runEvents_reset_reaches hq,
    fun p s t hq h => event_reachable hq h,
    fun p s hq hb hr => event_reserved hr (fun hc => (busy_eq_true s).mp hb hc.1) hq⟩

/-! ## What an event looks at (R50, R53) -/

/-- The code and the operand ports its command uses are all that the command is read from (R52). -/
theorem decodeCmd_eq_of_sameUsedPorts {p q : InPorts} (h : sameUsedPorts p q) :
    decodeCmd p.cmd = decodeCmd q.cmd := by
  obtain ⟨⟨-, -, hop⟩, hinit, hsetctr, hblock⟩ := h
  obtain hp | hp | hp | hp := op_cases p.cmd.op
  · obtain ⟨hk, hn⟩ := hinit hp
    rw [decodeCmd_init hp, decodeCmd_init (hop ▸ hp), hk, hn]
  · rw [decodeCmd_setctr hp, decodeCmd_setctr (hop ▸ hp), hsetctr hp]
  · rw [decodeCmd_start hp, decodeCmd_start (hop ▸ hp)]
  · obtain ⟨hk, hn, hc⟩ := hblock hp
    rw [decodeCmd_block hp, decodeCmd_block (hop ▸ hp), hk, hn, hc]

/-- An event that accepts a command is exec of that command (R53). -/
theorem event_of_accepts {p : InPorts} {s : State} (h : accepts p s = true) :
    event p s = exec (decodeCmd p.cmd) s := by
  obtain ⟨hr, hv, hi⟩ := accepts_iff.mp h
  exact event_command hr hv hi

/-- An event that accepts no command looks at reset only (R50, R53). -/
theorem event_eq_of_not_accepts {p q : InPorts} {s : State} (hrst : p.rst = q.rst)
    (hp : accepts p s = false) (hq : accepts q s = false) : event p s = event q s := by
  cases hr : p.rst with
  | true => rw [event_reset s hr, event_reset s (hrst ▸ hr)]
  | false =>
    have hr' : q.rst = false := hrst ▸ hr
    rw [event_sequencer hr, event_sequencer hr']
    · rintro ⟨hi, hv⟩
      exact Bool.eq_false_iff.mp hq (accepts_iff.mpr ⟨hr', hv, hi⟩)
    · rintro ⟨hi, hv⟩
      exact Bool.eq_false_iff.mp hp (accepts_iff.mpr ⟨hr, hv, hi⟩)

theorem accepts_congr {p q : InPorts} (h : samePortControl p q) (s : State) :
    accepts p s = accepts q s := by
  obtain ⟨hr, hv, -⟩ := h
  rw [accepts, accepts, hr, hv]

/-- Settles O5: both events accept the same command, or neither accepts one. -/
theorem unusedPortsAreIgnored : Obligations.UnusedPortsAreIgnored := by
  refine ⟨fun p s ha => ?_, fun p q s h => ?_, fun p q s => event_eq_of_not_accepts⟩
  · rw [event_of_accepts ha]
    exact ⟨fun h => by rw [decodeCmd_init h], fun h => by rw [decodeCmd_setctr h],
      fun h => by rw [decodeCmd_start h], fun h => by rw [decodeCmd_block h]⟩
  · have ⟨hctl, _⟩ := h
    have ⟨hrst, _⟩ := hctl
    have hsame := accepts_congr hctl s
    cases ha : accepts p s with
    | true =>
      rw [event_of_accepts ha, event_of_accepts (hsame ▸ ha), decodeCmd_eq_of_sameUsedPorts h]
    | false => exact event_eq_of_not_accepts hrst ha (hsame ▸ ha)

/-! ## The hold (R50) -/

theorem accepts_eq_false_of_not_offered {p : InPorts} (s : State) (h : p.cmdValid = false) :
    accepts p s = false := by
  simp [accepts, h]

/-- Where no command is accepted and no reset falls, the event is that of quiet ports (R50). -/
theorem event_eq_quiet_of_not_accepts {p : InPorts} {s : State} (hr : p.rst = false)
    (h : accepts p s = false) : event p s = event quietPorts s :=
  event_eq_of_not_accepts hr h (accepts_eq_false_of_not_offered s rfl)

theorem exec_command_busy {i : Instr} {s : State} (hi : isCommand i = true) (hb : s.sw.ph ≠ .idle) :
    exec i s = .next s := by
  cases i with
  | init | setctr | start | block => exact whenIdle_busy hb _
  | idle | copy | qrC0 | qrC1 | qrC2 | qrC3 | qrD0 | qrD1 | qrD2 | qrD3 | final =>
    simp [isCommand] at hi

/-- Only reset and FINAL lead from a busy engine to an idle one. -/
theorem event_ends_busy {p : InPorts} {s t : State} (hb : s.sw.ph ≠ .idle) (h : event p s = .next t)
    (ht : t.sw.ph = .idle) : p.rst = true ∨ s.sw.ph = .final := by
  cases event_effect h with
  | reset hr => exact .inl hr
  | init _ hi | setctr _ hi | start _ hi | block _ hi => exact absurd hi hb
  | idle => exact absurd ht hb
  | copy => cases ht
  | mix _ _ _ hd =>
    obtain ⟨hmix, -⟩ | ⟨hfin, -⟩ := mixAdvance_cases hd
    · cases hmix.symm.trans ht
    · cases (congrArg SeqWord.ph hfin).symm.trans ht
  | final _ _ hs => exact .inr (congrArg SeqWord.ph hs)

/-- Settles O30, clause by clause: where nothing is accepted the event is that of quiet ports, and of the
effects of an event only reset and FINAL lead from busy to idle. -/
theorem heldCommandsHaveNoEffect : Obligations.HeldCommandsHaveNoEffect := by
  refine ⟨fun p s => accepts_iff, fun p s hb hr => ?_, fun p s hv hr => ?_, fun i s hi hb => ?_,
    fun p s t hb h ht => ?_, fun p s h => ?_⟩
  · exact event_eq_quiet_of_not_accepts hr (accepts_eq_false_of_busy ((busy_eq_true s).mp hb))
  · exact event_eq_quiet_of_not_accepts hr (accepts_eq_false_of_not_offered s hv)
  · exact exec_command_busy hi ((busy_eq_true s).mp hb)
  · exact event_ends_busy ((busy_eq_true s).mp hb) h ((busy_eq_false t).mp ht)
  · cases hr : p.rst with
    | true => exact ⟨_, event_reset s hr, rfl⟩
    | false => exact ⟨_, event_final hr (h.resolve_left (by simp [hr])), rfl⟩

/-! ## The lines of a trace (R61, R62) -/

theorem waitIdle_of_idle {s : State} (n : Nat) (h : s.sw.ph = .idle) : waitIdle n s = .next s := by
  cases n with
  | zero => rfl
  | succ n => rw [waitIdle, if_pos h]

theorem waitIdle_of_busy {s t : State} (n : Nat) (hb : s.sw.ph ≠ .idle)
    (h : event quietPorts s = .next t) : waitIdle (n + 1) s = waitIdle n t := by
  rw [waitIdle, if_neg hb, h]

/-- As many quiet events as steps are left make the engine idle, and spare X (R17, R62, R93). -/
theorem waitIdle_ends_idle {n : Nat} {s : State} (hq : s.sw.reachable = true)
    (hn : s.sw.stepsLeft ≤ n) :
    ∃ t, waitIdle n s = .next t ∧ t.sw = ⟨.idle, 0, 0⟩ ∧ t.x = s.x := by
  induction n generalizing s with
  | zero => exact ⟨s, rfl, SeqWord.eq_idle_of_stepsLeft hq (by omega), rfl⟩
  | succ n ih =>
    by_cases h0 : s.sw.stepsLeft = 0
    · have hsw := SeqWord.eq_idle_of_stepsLeft hq h0
      exact ⟨s, waitIdle_of_idle _ (by rw [hsw]), hsw, rfl⟩
    · have hb : s.sw.ph ≠ .idle := fun h => h0 (SeqWord.stepsLeft_of_idle h)
      obtain ⟨u, hu, huq, hul⟩ := event_stepsLeft quietPorts_rst hq h0
      obtain ⟨t, ht, hsw, hx⟩ := ih huq (by omega)
      have hux : u.x = s.x := event_x_of_busy ((busy_eq_true s).mpr hb) quietPorts_rst hu
      exact ⟨t, (waitIdle_of_busy n hb hu).trans ht, hsw, hx.trans hux⟩

/-- A command line waits, then its command is performed in the idle engine (R61). -/
theorem run_command_of_waitIdle {s t : State} (c : CmdWord) (h : waitIdle blockSteps s = .next t)
    (ha : accepts (offer c) t = true) : TraceLine.run (.command c) s = exec (decodeCmd c) t := by
  simp only [TraceLine.run, h]
  exact event_of_accepts ha

/-- Settles O40: no reachable word has more than 82 steps left. -/
theorem traceLinesAreServed : Obligations.TraceLinesAreServed := by
  intro s hq
  obtain ⟨t, ht, hsw, hx⟩ := waitIdle_ends_idle hq (SeqWord.stepsLeft_le s.sw)
  refine ⟨t, ht, hsw, hx, fun c => ?_⟩
  have ha : accepts (offer c) t = true := accepts_iff.mpr ⟨rfl, rfl, by rw [hsw]⟩
  exact ⟨ha, run_command_of_waitIdle c ht ha⟩

/-! ## The result on its port (R55) -/

/-- A word of the 64 bytes is the port's slice at its place (R36, R39). -/
theorem packBlock_word (b : OutBytes) (i : Fin 16) :
    (packBlock b).extractLsb' (32 * i.val) 32 = memRead b (4 * i.val) := by
  have hb : (Vector.ofFn fun j : Fin 64 => (packBlock b).extractLsb' (8 * j.val) 8) = b := by
    ext j hj : 1
    rw [Vector.getElem_ofFn]
    exact packBlock_byte b ⟨j, hj⟩
  have hread := memRead_ofFn_bytes (n := 64) (packBlock b) (4 * i.val) (by omega)
  rw [hb, ← Nat.mul_assoc] at hread
  exact hread.symm

/-- Byte `k` of word `i` is serialised to place `4i + k` (R104). -/
theorem ser_getElem (R : Words16) (i : Fin 16) {k : Nat} (hk : k < 4) :
    (ser R)[4 * i.val + k] = wordByte R[i] k := by
  rw [ser, Vector.getElem_ofFn]
  have hdiv : (4 * i.val + k) / 4 = i.val := by omega
  have hmod : (4 * i.val + k) % 4 = k := by omega
  simp only [hdiv, hmod, Fin.getElem_fin]

/-- A serialised word is read back (R36, R104). -/
theorem memRead_ser (R : Words16) (i : Fin 16) : memRead (ser R) (4 * i.val) = R[i] := by
  have h0 : (ser R)[4 * i.val] = wordByte R[i] 0 := ser_getElem R i (k := 0) (by omega)
  rw [memRead, ser_getElem R i (by omega), ser_getElem R i (by omega), ser_getElem R i (by omega),
    h0, append_wordByte]

/-- Settles O58: FINAL serialises the sums, and the port shows the bytes of a valid block. -/
theorem resultWordsArePortSlices : Obligations.ResultWordsArePortSlices := by
  intro s
  refine ⟨_, rfl, fun look i => ?_⟩
  calc (packBlock (finalize s.w s.x)).extractLsb' (32 * i.val) 32
      = memRead (finalize s.w s.x) (4 * i.val) := packBlock_word _ i
    _ = (feed s.w s.x)[i] := memRead_ser _ i

end Sys2Proof.Machine
end

section
/-!
PROOFS of the statements of 40_initializer.md: the layout of INITSTATE (R68), the commands INIT and SETCTR
(R67, R70), and what one leaves of the other (R71, R72, R74).
-/

namespace Sys2Proof.Machine

/-! ## INITSTATE (R68) -/

@[simp] theorem initState_counter (key : Vector Byte 32) (nonce : Vector Byte 12) :
    (initState key nonce)[12] = 0 := rfl

/-- Settles O55, word by word. -/
theorem initStateLayout : Obligations.InitStateLayout := by
  intro key nonce
  refine ⟨fun i => ?constants, fun i => ?key, initState_counter key nonce, fun i => ?nonce⟩
  case constants => match i with | 0 | 1 | 2 | 3 => rfl
  case key => match i with | 0 | 1 | 2 | 3 | 4 | 5 | 6 | 7 => rfl
  case nonce => match i with | 0 | 1 | 2 => rfl

/-- INITSTATE of what the ports carry: the constant's literals and slices of the ports (R40, R68, R69). -/
theorem initState_ports (key : BitVec 256) (nonce : BitVec 96) :
    initState (keyBytes key) (nonceBytes nonce) =
      #v[0x61707865, 0x3320646e, 0x79622d32, 0x6b206574,
        key.extractLsb' 0 32, key.extractLsb' 32 32, key.extractLsb' 64 32, key.extractLsb' 96 32,
        key.extractLsb' 128 32, key.extractLsb' 160 32, key.extractLsb' 192 32,
        key.extractLsb' 224 32, 0,
        nonce.extractLsb' 0 32, nonce.extractLsb' 32 32, nonce.extractLsb' 64 32] := by
  obtain ⟨c0, c1, c2, c3⟩ := constWord_literals
  simp only [initState, c0, c1, c2, c3, keyWord_keyBytes, nonceWord_nonceBytes]
  rfl

/-! ## INIT and SETCTR in an idle engine (R67, R70) -/

theorem exec_init_idle {s : State} (hi : s.sw.ph = .idle) (key : BitVec 256) (nonce : BitVec 96) :
    exec (.init key nonce) s =
      .next (s.setX (initState (keyBytes key) (nonceBytes nonce))).markLoaded :=
  whenIdle_idle hi _

theorem exec_setctr_idle {s : State} (hi : s.sw.ph = .idle) (ctr : BitVec 32) :
    exec (.setctr ctr) s = .next (s.setCounter ctr) :=
  whenIdle_idle hi _

/-- An idle engine performs an offered command (R50). -/
theorem event_offer_idle {s : State} (hi : s.sw.ph = .idle) (c : CmdWord) :
    event (offer c) s = exec (decodeCmd c) s :=
  event_command rfl rfl hi

/-- An offered INIT has its effect, whatever `ctr_in` holds (R67). -/
theorem event_offer_init {s : State} (hi : s.sw.ph = .idle) (key : BitVec 256) (nonce : BitVec 96)
    (ctr : BitVec 32) :
    event (offer ⟨0b00, key, nonce, ctr⟩) s =
      .next (s.setX (initState (keyBytes key) (nonceBytes nonce))).markLoaded :=
  (event_offer_idle hi _).trans (exec_init_idle hi key nonce)

/-- An offered SETCTR has its effect, whatever `key_in` and `nonce_in` hold (R70). -/
theorem event_offer_setctr {s : State} (hi : s.sw.ph = .idle) (key : BitVec 256)
    (nonce : BitVec 96) (ctr : BitVec 32) :
    event (offer ⟨0b01, key, nonce, ctr⟩) s = .next (s.setCounter ctr) :=
  (event_offer_idle hi _).trans (exec_setctr_idle hi ctr)

/-- Settles O10: the effect by the hold's two cases, the examples by the slices of the ports. -/
theorem initLoadsKeyAndNonce : Obligations.InitLoadsKeyAndNonce := by
  refine ⟨fun key nonce s hi => exec_init_idle hi key nonce, initState_counter, ?_, ?_,
    fun key nonce s hb => exec_command_busy rfl hb,
    fun key nonce ctr s hi => event_offer_idle hi _⟩
  · rw [initState_ports]; decide
  · rw [initState_ports]; decide

/-- Settles O11: the effect is `setCounter`, which spares the other words of X. -/
theorem setctrWritesWordTwelve : Obligations.SetctrWritesWordTwelve := by
  refine ⟨fun ctr s hi => ⟨s.setCounter ctr, exec_setctr_idle hi ctr, ?_, ?_, rfl⟩,
    fun ctr s hb => exec_command_busy rfl hb, fun key nonce ctr s hi => event_offer_idle hi _⟩
  · exact Vector.getElem_set_self _
  · exact fun j => setCounter_x_getElem s ctr

/-! ## A finished result (R72) -/

/-- A valid output's port shows OUT alone, so it is unchanged where OUT and OUT_VALID are (R30). -/
theorem outBlock_eq_of_valid {s t : State} (ho : t.out = s.out) (hv : t.outValid = s.outValid)
    (hs : s.outValid = true) (look : Nat) : t.outBlock look = s.outBlock look := by
  rw [State.outBlock, State.outBlock, if_pos (hv.trans hs), if_pos hs, ho]

/-- Settles O15: a busy engine holds either command, and in an idle one each has its effect, which spares W,
OUT, OUT_VALID and SW. -/
theorem initAndSetctrKeepTheResult : Obligations.InitAndSetctrKeepTheResult := by
  intro i s key nonce ctr h
  by_cases hi : s.sw.ph = .idle
  · obtain rfl | rfl := h
    · exact ⟨_, exec_init_idle hi key nonce, rfl, rfl, rfl, rfl, outBlock_eq_of_valid rfl rfl,
        fun _ => ⟨fun _ => ⟨rfl, rfl⟩, nofun⟩⟩
    · exact ⟨_, exec_setctr_idle hi ctr, rfl, rfl, rfl, rfl, outBlock_eq_of_valid rfl rfl,
        fun _ => ⟨nofun, fun _ => ⟨rfl, rfl⟩⟩⟩
  · have hc : isCommand i = true := by obtain rfl | rfl := h <;> rfl
    exact ⟨s, exec_command_busy hc hi, rfl, rfl, rfl, rfl, fun _ _ => rfl, fun h => absurd h hi⟩

/-! ## The order of INIT and SETCTR (R71, R74) -/

/-- A later counter replaces an earlier one (R71). -/
theorem setCounter_setCounter (s : State) (c ctr : Word) :
    (s.setCounter c).setCounter ctr = s.setCounter ctr := by
  simp [State.setCounter]

/-- A run of SETCTR commands in an idle engine is its last one: the engine stays idle after each, and the
next counter replaces the one before (R71). -/
theorem runEvents_setctrs {s : State} (hi : s.sw.ph = .idle) (ctr : BitVec 32)
    (ctrs : List (BitVec 32)) :
    runEvents ((ctrs ++ [ctr]).map fun c => offer ⟨0b01, 0, 0, c⟩) s = .next (s.setCounter ctr) := by
  induction ctrs generalizing s with
  | nil => exact runEvents_cons (event_offer_setctr hi 0 0 ctr)
  | cons c ctrs ih =>
    rw [List.cons_append, List.map_cons, runEvents_cons (event_offer_setctr hi 0 0 c),
      ih (s := s.setCounter c) hi, setCounter_setCounter]

/-- Settles O16: after INIT the run of SETCTR commands leaves its last counter. -/
theorem lastSetctrWins : Obligations.LastSetctrWins := by
  intro key nonce c0 ctr ctrs s hi
  refine ⟨_, (runEvents_cons (event_offer_init hi key nonce c0)).trans
    (runEvents_setctrs ?stillIdle ctr ctrs), rfl⟩
  case stillIdle => exact hi

/-- Settles O17: INIT writes all of X over what SETCTR left. -/
theorem initAfterSetctrLosesTheCounter : Obligations.InitAfterSetctrLosesTheCounter := by
  intro key nonce c0 ctr s hi
  refine ⟨((s.setCounter ctr).setX (initState (keyBytes key) (nonceBytes nonce))).markLoaded, ?_,
    rfl, initState_counter _ _⟩
  calc runEvents [offer ⟨0b01, key, nonce, ctr⟩, offer ⟨0b00, key, nonce, c0⟩] s
      = runEvents [offer ⟨0b00, key, nonce, c0⟩] (s.setCounter ctr) :=
        runEvents_cons (event_offer_setctr hi key nonce ctr)
    _ = _ := runEvents_cons (event_offer_init (s := s.setCounter ctr) hi key nonce c0)

end Sys2Proof.Machine
end

section
/-!
PROOFS of the statements of 41_arx_mixer.md: the three primitives ADD32, XOR32 and ROTL32 (R75 to R77) and
the quarter round at four positions of a state (R80).
-/

namespace Sys2Proof.Machine

/-! ## ADD32 and XOR32 (R75, R76) -/

@[simp] theorem add32_toNat (a b : Word) : (add32 a b).toNat = (a.toNat + b.toNat) % 2 ^ 32 :=
  BitVec.toNat_add a b

theorem add32_comm (a b : Word) : add32 a b = add32 b a := BitVec.add_comm a b

theorem add32_assoc (a b c : Word) : add32 (add32 a b) c = add32 a (add32 b c) :=
  BitVec.add_assoc a b c

@[simp] theorem add32_zero (a : Word) : add32 a 0 = a := BitVec.add_zero a

@[simp] theorem xor32_getLsbD (a b : Word) (i : Nat) :
    (xor32 a b).getLsbD i = (a.getLsbD i ^^ b.getLsbD i) := BitVec.getLsbD_xor

@[simp] theorem xor32_self (a : Word) : xor32 a a = 0 := BitVec.xor_self

@[simp] theorem xor32_zero (a : Word) : xor32 a 0 = a := BitVec.xor_zero

/-- Settles O45: the laws are those of the words' own sum and exclusive or, the examples are evaluated. -/
theorem addAndXorAreModularAndBitwise : Obligations.AddAndXorAreModularAndBitwise := by
  refine ⟨fun a b => ⟨add32_toNat a b, add32_comm a b, add32_zero a⟩, add32_assoc, by decide, by decide,
    by decide, fun a b i _ => ?bits, fun a => ⟨xor32_self a, xor32_zero a⟩, by decide⟩
  case bits => rw [xor32_getLsbD, bne_iff_ne]

/-! ## ROTL32 (R77) -/

section Rotl32

variable (v : Word) {n : Nat}

/-- The bits below `32 - n` move up by `n`, the top `n` bits come in below (R77). -/
theorem rotl32_getLsbD_add_mod (hn : n < 32) {i : Nat} (hi : i < 32) :
    (rotl32 v n).getLsbD ((i + n) % 32) = v.getLsbD i := by
  rw [rotl32, BitVec.getLsbD_rotateLeft_of_le hn]
  by_cases hin : i + n < 32
  · rw [Nat.mod_eq_of_lt hin]
    simp [hin]
  · have hwrap : (i + n) % 32 = i + n - 32 := by omega
    have hlow : i + n - 32 < n := by omega
    have hfrom : 32 - n + (i + n - 32) = i := by omega
    simp [hwrap, hlow, hfrom]

/-- The two parts of the formula share no bit, so their bitwise or is their sum (R77). -/
theorem rotl32_toNat (hn : n < 32) :
    (rotl32 v n).toNat = (v.toNat * 2 ^ n) % 2 ^ 32 + v.toNat / 2 ^ (32 - n) := by
  have hsplit : 2 ^ 32 = 2 ^ n * 2 ^ (32 - n) := by rw [← Nat.pow_add]; congr 1; omega
  have hhigh : (v.toNat * 2 ^ n) % 2 ^ 32 = 2 ^ n * (v.toNat % 2 ^ (32 - n)) := by
    rw [hsplit, Nat.mul_comm, Nat.mul_mod_mul_left]
  have hlow : v.toNat / 2 ^ (32 - n) < 2 ^ n :=
    Nat.div_lt_of_lt_mul (by rw [Nat.mul_comm, ← hsplit]; exact v.isLt)
  rw [rotl32, BitVec.toNat_rotateLeft, Nat.mod_eq_of_lt hn, Nat.shiftLeft_eq,
    Nat.shiftRight_eq_div_pow, hhigh, Nat.two_pow_add_eq_or_of_lt hlow]

end Rotl32

/-- Settles O46: bit by bit and as the formula for every amount, the examples by evaluation. -/
theorem rotateMovesEveryBitLeft : Obligations.RotateMovesEveryBitLeft :=
  ⟨by decide, by decide, by decide, by decide, by decide, by decide, fun v _ _ hn =>
    ⟨fun _ hi => rotl32_getLsbD_add_mod v (Nat.lt_succ_of_le hn) hi,
      rotl32_toNat v (Nat.lt_succ_of_le hn)⟩⟩

/-! ## The quarter round on a state (R80) -/

theorem group_distinct_iff {t : Group} :
    t.distinct = true ↔
      t.a ≠ t.b ∧ t.a ≠ t.c ∧ t.a ≠ t.d ∧ t.b ≠ t.c ∧ t.b ≠ t.d ∧ t.c ≠ t.d := decide_eq_true_iff

/-- At distinct positions no write of a group's results hides another, and the rest is untouched (R80). -/
theorem quarterAt_qrs (S : Words16) {t : Group} (ht : t.distinct = true) :
    quarterAt S (qrs S t) t.a t.b t.c t.d := by
  obtain ⟨hab, hac, had, hbc, hbd, hcd⟩ := group_distinct_iff.mp ht
  simp only [quarterAt, qrs, putQuad_getElem, quadAt]
  refine ⟨by simp [hab, hac, had], by simp [hbc, hbd], by simp [hcd], by simp, ?rest⟩
  case rest =>
    intro j hja hjb hjc hjd
    simp [hja, hjb, hjc, hjd]

/-- Settles O47: the frame by the positions' distinctness, the source's vector by evaluation. -/
theorem quarterRoundTouchesOnlyItsGroup : Obligations.QuarterRoundTouchesOnlyItsGroup :=
  ⟨fun S _ ht => quarterAt_qrs S ht, by decide⟩

end Sys2Proof.Machine
end

section
/-!
PROOFS of the statements of 42_round_schedule.md: the round schedule as functions (R87 to R92), the
micro-operations IDLE, COPY and QR.C0 to QR.D3 (R88, R94 to R102), and the sequencer step (R93).
-/

namespace Sys2Proof.Machine

/-! ## Groups with no position in common (R92) -/

theorem group_disjoint_iff {t u : Group} :
    t.disjoint u = true ↔ ∀ j ∈ t.positions, j ∉ u.positions := by
  simp [Group.disjoint]

theorem mem_positions {t : Group} {j : Fin 16} :
    j ∈ t.positions ↔ j = t.a ∨ j = t.b ∨ j = t.c ∨ j = t.d := by
  simp [Group.positions]

/-- A write to a group leaves every word outside it. -/
theorem putQuad_getElem_outside (S : Words16) {t : Group} (q : Quad) {j : Fin 16}
    (hj : j ∉ t.positions) : (putQuad S t q)[j] = S[j] := by
  simp only [mem_positions, not_or] at hj
  obtain ⟨ha, hb, hc, hd⟩ := hj
  rw [putQuad_getElem, if_neg hd, if_neg hc, if_neg hb, if_neg ha]

/-- What a write leaves inside its group does not depend on the state written to. -/
theorem putQuad_getElem_inside (S T : Words16) {t : Group} (q : Quad) {j : Fin 16}
    (hj : j ∈ t.positions) : (putQuad S t q)[j] = (putQuad T t q)[j] := by
  simp only [putQuad_getElem]
  obtain rfl | rfl | rfl | rfl := mem_positions.mp hj
  all_goals simp

/-- The quarter round of a group reads the group's words only (R80). -/
theorem quadAt_congr {S T : Words16} {t : Group} (h : ∀ j ∈ t.positions, S[j] = T[j]) :
    quadAt S t = quadAt T t := by
  have ha := h t.a (mem_positions.mpr (by simp))
  have hb := h t.b (mem_positions.mpr (by simp))
  have hc := h t.c (mem_positions.mpr (by simp))
  have hd := h t.d (mem_positions.mpr (by simp))
  rw [quadAt, quadAt, ha, hb, hc, hd]

section Disjoint

variable {t u : Group} (h : t.disjoint u = true)

include h

theorem group_disjoint_symm : u.disjoint t = true :=
  group_disjoint_iff.mpr fun j hu ht => group_disjoint_iff.mp h j ht hu

/-- A group does not read what is written to the other one. -/
theorem quadAt_putQuad (S : Words16) (q : Quad) : quadAt (putQuad S t q) u = quadAt S u :=
  quadAt_congr fun j hu =>
    putQuad_getElem_outside S q (group_disjoint_iff.mp (group_disjoint_symm h) j hu)

/-- Each word is written by one of the two groups at most. -/
theorem putQuad_comm (S : Words16) (q r : Quad) :
    putQuad (putQuad S t q) u r = putQuad (putQuad S u r) t q := by
  apply words16_ext
  intro j
  by_cases hu : j ∈ u.positions
  · have ht : j ∉ t.positions := group_disjoint_iff.mp (group_disjoint_symm h) j hu
    rw [putQuad_getElem_outside _ q ht]
    exact putQuad_getElem_inside _ _ r hu
  · rw [putQuad_getElem_outside _ r hu]
    by_cases ht : j ∈ t.positions
    · exact putQuad_getElem_inside _ _ q ht
    · rw [putQuad_getElem_outside _ q ht, putQuad_getElem_outside _ q ht,
        putQuad_getElem_outside _ r hu]

/-- Quarter rounds of groups with no common position commute (R92). -/
theorem qrs_comm (S : Words16) : qrs (qrs S t) u = qrs (qrs S u) t := by
  simp only [qrs]
  rw [quadAt_putQuad h, quadAt_putQuad (group_disjoint_symm h), putQuad_comm h]

end Disjoint

/-! ## A pass at once (R81, R92) -/

/-- Groups that read from `acc` what they read from `S` do the same from `acc` one by one as from `S` at
once, for no group reads what another one writes. -/
theorem foldl_putQuad_eq_foldl_qrs {ts : List Group} {S acc : Words16}
    (hd : ts.Pairwise fun t u => t.disjoint u = true)
    (hacc : ∀ t ∈ ts, quadAt acc t = quadAt S t) :
    ts.foldl (fun acc t => putQuad acc t (quadAt S t)) acc = ts.foldl qrs acc := by
  induction ts generalizing acc with
  | nil => rfl
  | cons t ts ih =>
    obtain ⟨ht, hd⟩ := List.pairwise_cons.mp hd
    obtain ⟨hat, hacc⟩ := List.forall_mem_cons.mp hacc
    rw [List.foldl_cons, List.foldl_cons, ← hat, ← qrs]
    exact ih hd fun u hu => (quadAt_putQuad (ht u hu) acc _).trans (hacc u hu)

/-- A pass over pairwise disjoint groups may be done at once (R92). -/
theorem passAtOnce_eq_foldl_qrs {ts : List Group} (S : Words16)
    (hd : ts.Pairwise fun t u => t.disjoint u = true) : passAtOnce S ts = ts.foldl qrs S :=
  foldl_putQuad_eq_foldl_qrs hd fun _ _ => rfl

/-- The groups of one pass have no position in common (R87, R92). -/
theorem group_disjoint_of_same_pass : ∀ g h : BitVec 3, g ≠ h → g.toNat / 4 = h.toNat / 4 →
    (group g).disjoint (group h) = true := by
  decide

/-- A double round is a pass over the columns and a pass over the diagonals, each at once (R89, R92). -/
theorem dround_eq_passes (S : Words16) :
    dround S = passAtOnce (passAtOnce S [group 0, group 1, group 2, group 3])
      [group 4, group 5, group 6, group 7] := by
  rw [passAtOnce_eq_foldl_qrs _ (by decide), passAtOnce_eq_foldl_qrs _ (by decide)]
  rfl

theorem roundsByPass_eq_drounds (n : Nat) (S : Words16) : roundsByPass n S = drounds n S := by
  induction n with
  | zero => rfl
  | succ n ih => rw [drounds, dround_eq_passes, roundsByPass, ih]

/-- Settles O49: disjoint groups neither read nor write each other's words. -/
theorem groupsOfAPassCommute : Obligations.GroupsOfAPassCommute :=
  ⟨fun S _ _ _ _ h => qrs_comm h S, group_disjoint_of_same_pass, roundsByPass_eq_drounds⟩

/-! ## The 80 applications (R90, R91) -/

/-- The first `n` applications as one loop over their numbers (R91). -/
theorem applications_eq_foldl (n : Nat) (S : Words16) :
    applications n S =
      (List.range n).foldl (fun T n => qrs T (group (BitVec.ofNat 3 (n % 8)))) S := by
  induction n with
  | zero => rfl
  | succ n ih =>
    have hmod : BitVec.ofNat 3 (n % 8) = BitVec.ofNat 3 n := BitVec.eq_of_toNat_eq (by simp)
    rw [applications, ih, List.range_succ, List.foldl_append, List.foldl_cons, List.foldl_nil, hmod]

/-- Settles O50: 80 applications are ten times eight. -/
theorem roundsAreEightyApplications : Obligations.RoundsAreEightyApplications :=
  ⟨fun S => (applications_eighty S).symm.trans (applications_eq_foldl 80 S), applications_eight_mul,
    applications_eighty⟩

/-! ## IDLE and COPY (R88, R94) -/

/-- Settles O18: where nothing is accepted the event is that of quiet ports, which IDLE leaves alone. -/
theorem idleDoesNothing : Obligations.IdleDoesNothing := by
  refine ⟨fun s => rfl, fun p s hs hr ha => ?_, fun p s ha => ?_⟩
  · rw [event_eq_quiet_of_not_accepts hr ha, event_idle quietPorts_rst quietPorts_cmdValid hs]
  · obtain ⟨-, -, hi⟩ := accepts_iff.mp ha
    exact hi

/-- Settles O19: of the nine effects of an event only those of START and BLOCK leave SW in COPY. -/
theorem copyDuplicatesX : Obligations.CopyDuplicatesX := by
  refine ⟨fun s => ⟨(s.setW s.x).setSW .mix 0 0, rfl, fun _ => rfl, rfl, ?_, fun _ => rfl⟩,
    fun p s t h hc => ?_⟩
  · simp [onlyWorkAndSW]
  · cases event_effect h with
    | start _ _ ha hop hl => exact ⟨ha, .inl hop, hl⟩
    | block _ _ ha hop => exact ⟨ha, .inr hop, rfl⟩
    | init _ hi | setctr _ hi => simp [hi] at hc
    | idle _ _ hs => simp [hs] at hc
    | mix _ _ _ hd =>
      obtain ⟨hph, -⟩ | ⟨hfin, -⟩ := mixAdvance_cases hd
      · simp [hph] at hc
      · simp [hfin] at hc
    | reset | copy | final => simp at hc

/-! ## The QR micro-operations (R95 to R102) -/

/-- The QR micro-operation that `G` selects has the quarter round of `GROUP[G]` and the advance of R93 as
its whole effect. -/
theorem doesQuarterRound_decodeMix (g : BitVec 3) (dr : BitVec 4) (s : State) :
    doesQuarterRound (decodeMix g dr) s (group g).a (group g).b (group g).c (group g).d
      (mixAdvance ⟨.mix, dr, g⟩) :=
  ⟨_, exec_decodeMix s g dr, quarterAt_qrs s.w (group_distinct g), rfl, by simp [onlyWorkAndSW]⟩

/-- A MIX word with a legal `DR` selects such a micro-operation (R57). -/
theorem mixWord_doesQuarterRound (g : BitVec 3) {dr : BitVec 4} (s : State) (h : dr.toNat ≤ 9) :
    decodeSeq ⟨.mix, dr, g⟩ = .ok (decodeMix g dr) ∧
      doesQuarterRound (decodeMix g dr) s (group g).a (group g).b (group g).c (group g).d
        (mixAdvance ⟨.mix, dr, g⟩) :=
  ⟨decodeSeq_mix g (decide_eq_true h), doesQuarterRound_decodeMix g dr s⟩

/-- Settles O20: the micro-operations at `G` = 0 to 3, and the examples by evaluation. -/
theorem columnQuarterRounds : Obligations.ColumnQuarterRounds :=
  ⟨by decide, by decide, by decide, by decide, fun _ s h =>
    ⟨mixWord_doesQuarterRound 0 s h, mixWord_doesQuarterRound 1 s h, mixWord_doesQuarterRound 2 s h,
      mixWord_doesQuarterRound 3 s h⟩⟩

/-- Settles O21: the micro-operations at `G` = 4 to 7, and the examples by evaluation. -/
theorem diagonalQuarterRounds : Obligations.DiagonalQuarterRounds :=
  ⟨by decide, by decide, by decide, by decide, fun _ s h =>
    ⟨mixWord_doesQuarterRound 4 s h, mixWord_doesQuarterRound 5 s h, mixWord_doesQuarterRound 6 s h,
      mixWord_doesQuarterRound 7 s h⟩⟩

/-! ## The sequencer step (R93) -/

theorem noReset_take {ps : List InPorts} (h : noReset ps = true) (k : Nat) :
    noReset (ps.take k) = true :=
  List.all_eq_true.mpr fun p hp => List.all_eq_true.mp h p (List.mem_of_mem_take hp)

section StepsLeft

variable {ps : List InPorts} {s : State} (hn : noReset ps = true) (hq : s.sw.reachable = true)
  (hlen : ps.length = s.sw.stepsLeft)

include hn hq hlen

/-- As many events without reset as steps are left lead to IDLE (R93). -/
theorem runEvents_ends_idle : ∃ t, runEvents ps s = .next t ∧ t.sw = ⟨.idle, 0, 0⟩ := by
  obtain ⟨t, ht, htq, hleft⟩ := runEvents_stepsLeft hn hq hlen.le
  exact ⟨t, ht, SeqWord.eq_idle_of_stepsLeft htq (by omega)⟩

/-- Before each of these events the engine is busy (R93). -/
theorem runEvents_take_busy {k : Nat} (hk : k < ps.length) :
    ∃ u, runEvents (ps.take k) s = .next u ∧ u.busy = true := by
  have htake : (ps.take k).length = k := List.length_take_of_le hk.le
  obtain ⟨u, hu, -, hleft⟩ := runEvents_stepsLeft (noReset_take hn k) hq (by omega)
  refine ⟨u, hu, (busy_eq_true u).mpr fun hi => ?_⟩
  have := SeqWord.stepsLeft_of_idle hi
  omega

end StepsLeft

/-- Settles O25: the step by its phase, and the run by the 82 steps that COPY has left. -/
theorem sequencerStep : Obligations.SequencerStep := by
  refine ⟨fun _ _ => event_copy, fun _ _ => event_mix, fun _ _ => event_final, fun _ _ hr hs hv =>
    event_idle hr hv hs, fun ps s hs hn hlen => ?_⟩
  have hq : s.sw.reachable = true := by rw [hs]; rfl
  have hleft : ps.length = s.sw.stepsLeft := by rw [hs]; exact hlen
  exact ⟨fun k hk => runEvents_take_busy hn hq hleft (hk.trans_eq hlen.symm),
    runEvents_ends_idle hn hq hleft⟩

end Sys2Proof.Machine
end

section
/-!
PROOFS of the statements of 43_finalizer.md: the functions FEED, SER and FINALIZE (R103, R104, R106) and the
micro-operation FINAL (R105).
-/

namespace Sys2Proof.Machine

/-! ## FEED (R103) -/

theorem feed_getElem (W X : Words16) (i : Fin 16) : (feed W X)[i] = add32 W[i] X[i] :=
  Vector.getElem_ofFn i.isLt

theorem feed_comm (W X : Words16) : feed W X = feed X W :=
  words16_ext fun i => by rw [feed_getElem, feed_getElem, add32_comm]

/-- Settles O51: each word of the sum is that of the two words at its place, and of nothing else. -/
theorem feedForwardAddsWordByWord : Obligations.FeedForwardAddsWordByWord := by
  refine ⟨fun W X i => ⟨feed_getElem W X i, ?_⟩, fun W X V Y i hW hX => ?_⟩
  · rw [feed_getElem, add32_toNat]
  · rw [feed_getElem, feed_getElem, hW, hX]

/-- The original state taken off a sum again, word by word: what undoes FEED. -/
def unfeed (R X : Words16) : Words16 := Vector.ofFn fun i => R[i] - X[i]

theorem unfeed_getElem (R X : Words16) (i : Fin 16) : (unfeed R X)[i] = R[i] - X[i] :=
  Vector.getElem_ofFn i.isLt

theorem unfeed_feed (W X : Words16) : unfeed (feed W X) X = W :=
  words16_ext fun i => by rw [unfeed_getElem, feed_getElem, add32, BitVec.add_sub_cancel]

theorem feed_unfeed (R X : Words16) : feed (unfeed R X) X = R :=
  words16_ext fun i => by rw [feed_getElem, unfeed_getElem, add32, BitVec.sub_add_cancel]

theorem feed_bijective (X : Words16) : Function.Bijective fun W => feed W X :=
  Function.bijective_iff_has_inverse.mpr
    ⟨fun R => unfeed R X, fun W => unfeed_feed W X, fun R => feed_unfeed R X⟩

/-! ## SER (R104) -/

/-- Every place of a block is `4i + k` for a word `i` and a byte `k` of it. -/
theorem outBytes_ext {A B : OutBytes}
    (h : ∀ (i : Fin 16) (k : Fin 4), A[4 * i.val + k.val] = B[4 * i.val + k.val]) : A = B := by
  ext j hj : 1
  have hplace := h ⟨j / 4, by omega⟩ ⟨j % 4, by omega⟩
  simpa only [Nat.div_add_mod] using hplace

/-- Byte `k` of a word read from memory is the byte at its offset plus `k` (R36). -/
theorem wordByte_memRead {n : Nat} (A : Vector Byte n) (off : Nat) (h : off + 4 ≤ n) (k : Fin 4) :
    wordByte (memRead A off h) k.val = A[off + k.val] := by
  obtain ⟨b0, b1, b2, b3⟩ := wordByte_append A[off + 3] A[off + 2] A[off + 1] A[off]
  match k with
  | 0 => exact b0
  | 1 => exact b1
  | 2 => exact b2
  | 3 => exact b3

/-- The 16 words a block is read back to: what undoes SER. -/
def deser (B : OutBytes) : Words16 := Vector.ofFn fun i => memRead B (4 * i.val)

theorem deser_getElem (B : OutBytes) (i : Fin 16) : (deser B)[i] = memRead B (4 * i.val) :=
  Vector.getElem_ofFn i.isLt

theorem deser_ser (R : Words16) : deser (ser R) = R :=
  words16_ext fun i => by rw [deser_getElem, memRead_ser]

theorem ser_deser (B : OutBytes) : ser (deser B) = B :=
  outBytes_ext fun i k => by rw [ser_getElem _ i k.isLt, deser_getElem, wordByte_memRead]

theorem ser_bijective : Function.Bijective ser :=
  Function.bijective_iff_has_inverse.mpr ⟨deser, deser_ser, ser_deser⟩

/-- Settles O52: FINALIZE of a fixed original state is one bijection after the other. -/
theorem finalizeIsABijection : Obligations.FinalizeIsABijection :=
  ⟨fun W X => ⟨rfl, congrArg ser (feed_comm W X)⟩, ser_bijective,
    fun X => ser_bijective.comp (feed_bijective X)⟩

/-! ## The loop of 16 MemWrites (R104, R105) -/

/-- A MemWrite of word `i` sets the bytes of that word and no other (R34, R37). -/
theorem memWrite_getElem_word (A : OutBytes) (i j : Fin 16) (v : Word) (k : Fin 4) :
    (memWrite A (4 * i.val) v)[4 * j.val + k.val] =
      if j = i then wordByte v k.val else A[4 * j.val + k.val] := by
  have hdiv : (4 * j.val + k.val) / 4 = j.val := by omega
  have hmod : (4 * j.val + k.val) % 4 = k.val := by omega
  simp only [memWrite_getElem, hdiv, hmod, Fin.ext_iff]

/-- After MemWrites of some of the words, in any order and however often, the bytes of these words are
theirs and the other bytes are the old ones. -/
theorem foldl_memWrite_getElem (R : Words16) (l : List (Fin 16)) (B : OutBytes) (i : Fin 16)
    (k : Fin 4) :
    (l.foldl (fun acc j => memWrite acc (4 * j.val) R[j]) B)[4 * i.val + k.val] =
      if i ∈ l then wordByte R[i] k.val else B[4 * i.val + k.val] := by
  induction l generalizing B with
  | nil => rw [List.foldl_nil, if_neg List.not_mem_nil]
  | cons j l ih =>
    rw [List.foldl_cons, ih, memWrite_getElem_word]
    by_cases hl : i ∈ l
    · rw [if_pos hl, if_pos (List.mem_cons_of_mem j hl)]
    · by_cases hj : i = j
      · subst hj
        rw [if_neg hl, if_pos rfl, if_pos List.mem_cons_self]
      · rw [if_neg hl, if_neg hj, if_neg (List.not_mem_cons_of_ne_of_not_mem hj hl)]

/-- The loop leaves no old byte, since it writes every word. -/
theorem writeWords_eq_ser (B : OutBytes) (R : Words16) : writeWords B R = ser R :=
  outBytes_ext fun i k => by
    rw [writeWords, foldl_memWrite_getElem, if_pos (List.mem_finRange i), ser_getElem R i k.isLt]

/-- Settles O53: the bytes by SER's own layout, the two ends among them. -/
theorem serialiserIsLittleEndian : Obligations.SerialiserIsLittleEndian :=
  ⟨fun R i k => ser_getElem R i k.isLt, fun R B => writeWords_eq_ser B R, fun R =>
    ⟨ser_getElem R 0 (k := 0) (by omega), ser_getElem R 15 (k := 3) (by omega)⟩⟩

/-! ## FINAL (R105) -/

/-- Byte `k` of the sum of the words `i` stands at `4i + k` of FINALIZE (R103, R104, R106). -/
theorem finalize_getElem (W X : Words16) (i : Fin 16) (k : Fin 4) :
    (finalize W X)[4 * i.val + k.val] = wordByte (add32 W[i] X[i]) k.val := by
  rw [← feed_getElem]
  exact ser_getElem (feed W X) i k.isLt

/-- Settles O22: OUT is FINALIZE of W and X, which is what the loop leaves over any old bytes; the other
fields are those of the three writes FINAL is made of. -/
theorem finalSerialisesTheSum : Obligations.FinalSerialisesTheSum := by
  intro s
  refine ⟨((s.setOut (finalize s.w s.x)).raiseOutValid).setSW .idle 0 0, rfl, ?bytes, ?loop,
    ?fields⟩
  case bytes => exact finalize_getElem s.w s.x
  case loop => exact (writeWords_eq_ser s.out (feed s.w s.x)).symm
  case fields => simp

end Sys2Proof.Machine
end

section
/-!
PROOFS of the statements of 44_block_engine.md: the commands START and BLOCK (R111 to R113), the block
computation as one transition (R115), what it depends on (R116, R118), and the bijections (R117).
-/

namespace Sys2Proof.Machine

/-! ## START and BLOCK in an idle engine (R111 to R113) -/

theorem exec_start_idle {s : State} (hi : s.sw.ph = .idle) (hl : s.loaded = true) :
    exec .start s = .next s.beginBlock :=
  (whenIdle_idle hi _).trans (if_pos hl)

theorem exec_start_unloaded {s : State} (hi : s.sw.ph = .idle) (hl : s.loaded = false) :
    exec .start s = .refused .startBeforeInit :=
  (whenIdle_idle hi _).trans (if_neg (by simp [hl]))

/-- What BLOCK loads before it begins the block: key, nonce and counter, and LOADED (R113). -/
def State.loadBlock (s : State) (key : BitVec 256) (ctr : BitVec 32) (nonce : BitVec 96) : State :=
  ((s.setX (initState (keyBytes key) (nonceBytes nonce))).setCounter ctr).markLoaded

@[simp] theorem loadBlock_x (s : State) (key : BitVec 256) (ctr : BitVec 32) (nonce : BitVec 96) :
    (s.loadBlock key ctr nonce).x = blockState (keyBytes key) ctr (nonceBytes nonce) := rfl

@[simp] theorem loadBlock_loaded (s : State) (key : BitVec 256) (ctr : BitVec 32)
    (nonce : BitVec 96) : (s.loadBlock key ctr nonce).loaded = true := rfl

theorem exec_block_idle {s : State} (hi : s.sw.ph = .idle) (key : BitVec 256) (ctr : BitVec 32)
    (nonce : BitVec 96) :
    exec (.block key ctr nonce) s = .next (s.loadBlock key ctr nonce).beginBlock :=
  whenIdle_idle hi _

/-- An accepted START of a loaded engine begins the block of its X (R111). -/
theorem event_accepted_start {p : InPorts} {s : State} (ha : accepts p s = true)
    (hop : p.cmd.op = 0b10) (hl : s.loaded = true) : event p s = .next s.beginBlock := by
  have ⟨_, _, hi⟩ := accepts_iff.mp ha
  rw [event_of_accepts ha, decodeCmd_start hop, exec_start_idle hi hl]

/-- An accepted BLOCK begins the block of its operands (R113). -/
theorem event_accepted_block {p : InPorts} {s : State} (ha : accepts p s = true)
    (hop : p.cmd.op = 0b11) :
    event p s = .next (s.loadBlock p.cmd.key p.cmd.ctr p.cmd.nonce).beginBlock := by
  have ⟨_, _, hi⟩ := accepts_iff.mp ha
  rw [event_of_accepts ha, decodeCmd_block hop, exec_block_idle hi]

/-- An idle engine accepts whatever is offered (R50). -/
theorem accepts_offer {s : State} (hi : s.sw.ph = .idle) (c : CmdWord) : accepts (offer c) s = true :=
  accepts_iff.mpr ⟨rfl, rfl, hi⟩

/-- An offered START begins the block, whatever the operand ports hold (R111). -/
theorem event_offer_start {s : State} (hi : s.sw.ph = .idle) (hl : s.loaded = true) {c : CmdWord}
    (hc : c.op = 0b10) : event (offer c) s = .next s.beginBlock :=
  event_accepted_start (accepts_offer hi c) hc hl

/-- An offered BLOCK loads its operands and begins their block (R113). -/
theorem event_offer_block {s : State} (hi : s.sw.ph = .idle) (key : BitVec 256)
    (nonce : BitVec 96) (ctr : BitVec 32) :
    event (offer ⟨0b11, key, nonce, ctr⟩) s = .next (s.loadBlock key ctr nonce).beginBlock :=
  event_accepted_block (accepts_offer hi _) rfl

/-- Settles O12: the hold's two cases, LOADED, and the command that the code alone selects. -/
theorem startBeginsTheBlock : Obligations.StartBeginsTheBlock :=
  ⟨fun _ hi hl => exec_start_idle hi hl, fun _ hb => exec_command_busy rfl hb,
    fun _ _ _ _ hi => event_offer_idle hi _⟩

/-- Settles O13: an accepting engine is idle, and START looks at LOADED there. -/
theorem startBeforeInitIsRefused : Obligations.StartBeforeInitIsRefused := by
  refine ⟨fun s hi hl => exec_start_unloaded hi hl, fun p s ha hop hl => ?_⟩
  have ⟨_, _, hi⟩ := accepts_iff.mp ha
  rw [event_of_accepts ha, decodeCmd_start hop, exec_start_unloaded hi hl]

/-! ## The stages of a block computation (R93, R115) -/

/-- A state between the acceptance of START or BLOCK and the valid output: what the computation of the
block of `X` has made so far. The invariant says the same of `W`, but only where `X` is known to come from a
key, a counter and a nonce; R115 speaks of any `X`. -/
structure BlockStage (X : Words16) (s : State) : Prop where
  swReachable : s.sw.reachable = true
  x_eq : s.x = X
  loaded : s.loaded = true
  /-- The output is not valid before the computation is over (R20). -/
  busyInvalid : s.sw.ph ≠ .idle → s.outValid = false
  /-- In a MIX phase `W` is the schedule as far as `SW` says (R91). -/
  mixWork : s.sw.ph = .mix → s.w = applications s.sw.done X
  finalWork : s.sw.ph = .final → s.w = rounds X
  /-- Back in IDLE the block stands in `OUT` (R115). -/
  complete : s.sw.ph = .idle → s.w = rounds X ∧ s.outValid = true ∧ s.out = finalize (rounds X) X

theorem blockStage_beginBlock {s : State} (hl : s.loaded = true) :
    BlockStage s.x s.beginBlock where
  swReachable := rfl
  x_eq := rfl
  loaded := hl
  busyInvalid _ := rfl
  mixWork := nofun
  finalWork := nofun
  complete := nofun

namespace BlockStage

variable {X : Words16} {s t : State} (h : BlockStage X s)

include h

theorem copy_step (hs : s.sw = ⟨.copy, 0, 0⟩) :
    BlockStage X { s with w := s.x, sw := ⟨.mix, 0, 0⟩ } where
  swReachable := rfl
  x_eq := h.x_eq
  loaded := h.loaded
  busyInvalid _ := h.busyInvalid (by simp [hs])
  mixWork _ := h.x_eq
  finalWork := nofun
  complete := nofun

/-- A MIX step does the application that `SW` counts, and the last one completes the rounds (R91, R93). -/
theorem mix_step (hp : s.sw.ph = .mix) (hd : s.sw.dr.toNat ≤ 9) :
    BlockStage X { s with w := qrs s.w (group s.sw.g), sw := mixAdvance s.sw } := by
  have hv : s.outValid = false := h.busyInvalid (by simp [hp])
  have hw : qrs s.w (group s.sw.g) = applications (s.sw.done + 1) X := by
    rw [h.mixWork hp, applications, SeqWord.ofNat_done]
  obtain ⟨hph, hdr, hdone, -⟩ | ⟨hfin, hdone⟩ := mixAdvance_cases hd
  · exact ⟨SeqWord.reachable_of_mix hph hdr, h.x_eq, h.loaded, fun _ => hv,
      fun _ => hw.trans (by rw [hdone]), by simp [hph], by simp [hph]⟩
  · exact ⟨by rw [hfin]; rfl, h.x_eq, h.loaded, fun _ => hv, by simp [hfin],
      fun _ => hw.trans (by rw [hdone, applications_eighty]), by simp [hfin]⟩

theorem final_step (hs : s.sw = ⟨.final, 0, 0⟩) :
    BlockStage X { s with out := finalize s.w s.x, outValid := true, sw := ⟨.idle, 0, 0⟩ } where
  swReachable := rfl
  x_eq := h.x_eq
  loaded := h.loaded
  busyInvalid hb := absurd rfl hb
  mixWork := nofun
  finalWork := nofun
  complete _ := by
    have hw : s.w = rounds X := h.finalWork (by rw [hs])
    exact ⟨hw, rfl, by rw [hw, h.x_eq]⟩

/-- An event of a busy engine without reset leads to the next stage. -/
theorem of_event {p : InPorts} (hr : p.rst = false) (hb : s.sw.ph ≠ .idle)
    (he : event p s = .next t) : BlockStage X t := by
  cases event_effect he with
  | reset hr' => simp [hr] at hr'
  | init _ hi | setctr _ hi | start _ hi | block _ hi => exact absurd hi hb
  | idle _ _ hs => exact absurd (congrArg SeqWord.ph hs) hb
  | copy _ _ hs => exact h.copy_step hs
  | mix _ _ hp hd => exact h.mix_step hp hd
  | final _ _ hs => exact h.final_step hs

/-- A run without reset, no longer than the computation, goes through the stages, one for each event. -/
theorem of_runEvents {ps : List InPorts} (hn : noReset ps = true)
    (hlen : ps.length ≤ s.sw.stepsLeft) :
    ∃ t, runEvents ps s = .next t ∧ BlockStage X t ∧
      t.sw.stepsLeft + ps.length = s.sw.stepsLeft := by
  induction ps generalizing s with
  | nil => exact ⟨s, rfl, h, rfl⟩
  | cons p ps ih =>
    obtain ⟨hr, hn⟩ := noReset_cons.mp hn
    rw [List.length_cons] at hlen ⊢
    have hleft : s.sw.stepsLeft ≠ 0 := by omega
    have hb : s.sw.ph ≠ .idle := fun hi => hleft (SeqWord.stepsLeft_of_idle hi)
    obtain ⟨u, hu, -, hul⟩ := event_stepsLeft (p := p) hr h.swReachable hleft
    obtain ⟨t, ht, hstage, htl⟩ := ih (h.of_event hr hb hu) hn (by omega)
    exact ⟨t, (runEvents_cons hu).trans ht, hstage, by omega⟩

end BlockStage

section BigStep

variable {s : State} {ps : List InPorts} (hl : s.loaded = true) (hn : noReset ps = true)
  (hlen : ps.length = 82)

include hl hn hlen

/-- From the beginning of a block, 82 events without reset complete it (R115). -/
theorem runEvents_beginBlock :
    ∃ t, runEvents ps s.beginBlock = .next t ∧ t.sw.ph = .idle ∧ BlockStage s.x t := by
  obtain ⟨t, ht, hstage, hleft⟩ := (blockStage_beginBlock hl).of_runEvents hn hlen.le
  have h0 : t.sw.stepsLeft = 0 := by
    rw [hlen, show s.beginBlock.sw.stepsLeft = 82 from rfl] at hleft
    omega
  exact ⟨t, ht, congrArg SeqWord.ph (SeqWord.eq_idle_of_stepsLeft hstage.swReachable h0), hstage⟩

/-- Before the last of them the engine is busy, so it accepts nothing, and the output is not valid (R115). -/
theorem runEvents_take_beginBlock {k : Nat} (hk : k < 82) :
    ∃ v, runEvents (ps.take k) s.beginBlock = .next v ∧ v.busy = true ∧ v.outValidPort = false ∧
      ∀ q, accepts q v = false := by
  have htake : (ps.take k).length = k := List.length_take_of_le (by omega)
  obtain ⟨v, hv, hstage, hleft⟩ :=
    (blockStage_beginBlock hl).of_runEvents (noReset_take hn k) (htake.trans_le hk.le)
  have hb : v.sw.ph ≠ .idle := fun hi => by
    rw [SeqWord.stepsLeft_of_idle hi, htake, show s.beginBlock.sw.stepsLeft = 82 from rfl] at hleft
    omega
  exact ⟨v, hv, (busy_eq_true v).mpr hb, hstage.busyInvalid hb, fun _ => accepts_eq_false_of_busy hb⟩

end BigStep

/-- What begins a block computation leaves a loaded state that begins its block; for START it is the state
as it was (R111, R113). -/
theorem event_begins_block {p : InPorts} {s : State} (ha : accepts p s = true)
    (hop : p.cmd.op = 0b10 ∧ s.loaded = true ∨ p.cmd.op = 0b11) :
    ∃ r : State, r.loaded = true ∧ event p s = .next r.beginBlock ∧
      (p.cmd.op = 0b10 → r.x = s.x) := by
  obtain ⟨hstart, hl⟩ | hblock := hop
  · exact ⟨s, hl, event_accepted_start ha hstart hl, fun _ => rfl⟩
  · exact ⟨_, rfl, event_accepted_block ha hblock, by simp [hblock]⟩

/-- Settles O28: the stages of the computation from the state that the accepted command leaves. -/
theorem blockComputationBigStep : Obligations.BlockComputationBigStep := by
  intro p ps s u ha hop hu hn hlen
  obtain ⟨r, hl, hbegin, hx⟩ := event_begins_block ha hop
  cases hbegin.symm.trans hu
  refine ⟨hx, fun k hk => runEvents_take_beginBlock hl hn hlen hk, ?_⟩
  obtain ⟨t, ht, hi, hstage⟩ := runEvents_beginBlock hl hn hlen
  obtain ⟨hw, hv, ho⟩ := hstage.complete hi
  exact ⟨t, ht, hi, hv, ho, hstage.x_eq, hw, hstage.loaded⟩

/-- INIT, SETCTR and START with no event between leave what BLOCK leaves, whatever their unused ports hold
(R113). -/
theorem runEvents_init_setctr_start {s : State} (hi : s.sw.ph = .idle) (key k : BitVec 256)
    (nonce n : BitVec 96) (ctr c0 : BitVec 32) {c : CmdWord} (hc : c.op = 0b10) :
    runEvents [offer ⟨0b00, key, nonce, c0⟩, offer ⟨0b01, k, n, ctr⟩, offer c] s =
      .next (s.loadBlock key ctr nonce).beginBlock := by
  refine (runEvents_cons (event_offer_init hi key nonce c0)).trans <|
    (runEvents_cons (event_offer_setctr ?idleAfterInit k n ctr)).trans <|
    runEvents_cons (event_offer_start ?idleAfterSetctr ?loaded hc)
  case idleAfterInit => exact hi
  case idleAfterSetctr => exact hi
  case loaded => rfl

/-- Settles O14: BLOCK begins the block of a loaded state whose X is the operands' original state. -/
theorem blockCommandComputesBlockFn : Obligations.BlockCommandComputesBlockFn := by
  refine ⟨fun key ctr nonce s hi => exec_block_idle hi key ctr nonce,
    fun key ctr nonce s hb => exec_command_busy rfl hb,
    fun key nonce ctr a b c s hi ha hb hc => ?_, fun key nonce ctr ps s hi hn hlen => ?_⟩
  · rw [ha, hb, runEvents_init_setctr_start hi _ _ _ _ _ _ hc, event_offer_block hi]
  · obtain ⟨t, ht, hti, hstage⟩ := runEvents_beginBlock (loadBlock_loaded s key ctr nonce) hn hlen
    obtain ⟨-, hv, ho⟩ := hstage.complete hti
    exact ⟨t, (runEvents_cons (event_offer_block hi key nonce ctr)).trans ht, ho, hv⟩

/-- Settles O39: SETCTR replaces the counter of the original state, and START begins its block. -/
theorem stateIsReusedAcrossBlocks : Obligations.StateIsReusedAcrossBlocks := by
  intro key nonce c0 ctr ps s hi hl hx hn hlen
  have hx' : (s.setCounter ctr).x = blockState key ctr nonce := by
    rw [setCounter_x, hx, blockState_set_counter]
  obtain ⟨t, ht, hti, hstage⟩ := runEvents_beginBlock (s := s.setCounter ctr) hl hn hlen
  obtain ⟨-, -, ho⟩ := hstage.complete hti
  refine ⟨t, ?_, ho.trans (by rw [hx', blockFn]), hstage.x_eq.trans hx', fun j hj => ?_⟩
  · rw [runEvents_cons (event_offer_setctr hi 0 0 ctr),
      runEvents_cons (event_offer_start (s := s.setCounter ctr) hi hl rfl), ht]
  · rw [hstage.x_eq, setCounter_x_getElem s ctr hj]

/-! ## What the block depends on (R116) -/

/-- Two valid outputs with the same OUT show the same block, at whatever look (R30). -/
theorem outBlock_eq_of_out_eq {u v : State} (hu : u.outValid = true) (hv : v.outValid = true)
    (ho : u.out = v.out) (look look' : Nat) : u.outBlock look = v.outBlock look' := by
  rw [State.outBlock, State.outBlock, if_pos hu, if_pos hv, ho]

/-- Two computations from the same X complete with the same block, whatever else differs (R116). -/
theorem runEvents_beginBlock_same_x {a b : State} {ps qs : List InPorts} (ha : a.loaded = true)
    (hb : b.loaded = true) (hx : a.x = b.x) (hps : noReset ps = true) (hqs : noReset qs = true)
    (hp : ps.length = 82) (hq : qs.length = 82) :
    ∃ u v, runEvents ps a.beginBlock = .next u ∧ runEvents qs b.beginBlock = .next v ∧
      u.out = v.out ∧ ∀ look look', u.outBlock look = v.outBlock look' := by
  obtain ⟨u, hu, hui, hustage⟩ := runEvents_beginBlock ha hps hp
  obtain ⟨v, hv, hvi, hvstage⟩ := runEvents_beginBlock hb hqs hq
  obtain ⟨-, huv, huo⟩ := hustage.complete hui
  obtain ⟨-, hvv, hvo⟩ := hvstage.complete hvi
  have ho : u.out = v.out := by rw [huo, hvo, hx]
  exact ⟨u, v, hu, hv, ho, outBlock_eq_of_out_eq huv hvv ho⟩

/-- Settles O37: both commands leave the same X, by START as it was, by BLOCK from the ports it uses. -/
theorem outputIsAFunctionOfTheInputs : Obligations.OutputIsAFunctionOfTheInputs := by
  intro p q ps qs s t hp hq h hps hqs hplen hqlen
  obtain ⟨hpop, hqop, hs, ht, hx⟩ | ⟨hpop, ⟨-, -, hop⟩, -, -, hused⟩ := h
  · rw [runEvents_cons (event_accepted_start hp hpop hs),
      runEvents_cons (event_accepted_start hq hqop ht)]
    exact runEvents_beginBlock_same_x hs ht hx hps hqs hplen hqlen
  · obtain ⟨hkey, hnonce, hctr⟩ := hused hpop
    rw [runEvents_cons (event_accepted_block hp hpop),
      runEvents_cons (event_accepted_block hq (hop ▸ hpop)), hkey, hnonce, hctr]
    exact runEvents_beginBlock_same_x rfl rfl rfl hps hqs hplen hqlen

/-! ## The bijections (R117) -/

/-- Two rotations that make up a whole turn undo each other (R77). -/
theorem rotl32_rotl32_cancel (v : Word) {n m : Nat} (hn : n < 32) (hm : m < 32) (h : n + m = 32) :
    rotl32 (rotl32 v n) m = v := by
  apply BitVec.eq_of_getLsbD_eq
  intro i hi
  have hturn : ((i + n) % 32 + m) % 32 = i := by omega
  calc (rotl32 (rotl32 v n) m).getLsbD i
      = (rotl32 (rotl32 v n) m).getLsbD (((i + n) % 32 + m) % 32) := by rw [hturn]
    _ = (rotl32 v n).getLsbD ((i + n) % 32) :=
        rotl32_getLsbD_add_mod _ hm (Nat.mod_lt _ (by omega))
    _ = v.getLsbD i := rotl32_getLsbD_add_mod v hn hi

theorem xor32_xor32_cancel (a b : Word) : xor32 (xor32 a b) b = a := by
  rw [xor32, xor32, BitVec.xor_assoc, BitVec.xor_self, BitVec.xor_zero]

/-- A quarter of the quarter round: `a += b; d ^= a; d <<<= n`, and the roles exchanged for the next one,
which does the same with `c`, `d` and `b` (R78). -/
def arxStep (n : Nat) (q : Quad) : Quad :=
  let a := add32 q.a q.b
  ⟨q.c, rotl32 (xor32 q.d a) n, a, q.b⟩

/-- What undoes `arxStep`: the rotation completed to a whole turn, the exclusive or again, the difference. -/
def arxUndo (n : Nat) (q : Quad) : Quad :=
  ⟨q.c - q.d, q.d, q.a, xor32 (rotl32 q.b (32 - n)) q.c⟩

/-- Four such steps are the quarter round, the roles back in their places (R78). -/
theorem qr4_eq_arxSteps (q : Quad) :
    qr4 q.a q.b q.c q.d = arxStep 7 (arxStep 8 (arxStep 12 (arxStep 16 q))) := rfl

theorem arxStep_bijective {n : Nat} (h0 : 0 < n) (hn : n < 32) :
    Function.Bijective (arxStep n) := by
  refine Function.bijective_iff_has_inverse.mpr ⟨arxUndo n, fun q => ?undone, fun q => ?redone⟩
  case undone =>
    have hrot : rotl32 (rotl32 (xor32 q.d (add32 q.a q.b)) n) (32 - n) = xor32 q.d (add32 q.a q.b) :=
      rotl32_rotl32_cancel _ hn (by omega) (by omega)
    have hsub : add32 q.a q.b - q.b = q.a := BitVec.add_sub_cancel q.a q.b
    simp only [arxStep, arxUndo, hrot, hsub, xor32_xor32_cancel]
  case redone =>
    have hrot : rotl32 (rotl32 q.b (32 - n)) n = q.b :=
      rotl32_rotl32_cancel _ (by omega) hn (by omega)
    have hadd : add32 (q.c - q.d) q.d = q.c := BitVec.sub_add_cancel q.c q.d
    simp only [arxStep, arxUndo, hadd, xor32_xor32_cancel, hrot]

theorem qr4_bijective : Function.Bijective fun q : Quad => qr4 q.a q.b q.c q.d := by
  have h (n : Nat) (h0 : 0 < n) (hn : n < 32) := arxStep_bijective h0 hn
  exact (h 7 (by omega) (by omega)).comp <| (h 8 (by omega) (by omega)).comp <|
    (h 12 (by omega) (by omega)).comp (h 16 (by omega) (by omega))

/-- The four words of a group, by role. -/
def readQuad (S : Words16) (t : Group) : Quad := ⟨S[t.a], S[t.b], S[t.c], S[t.d]⟩

/-- At distinct positions the four words written are read back. -/
theorem readQuad_putQuad (S : Words16) {t : Group} (ht : t.distinct = true) (q : Quad) :
    readQuad (putQuad S t q) t = q := by
  obtain ⟨hab, hac, had, hbc, hbd, hcd⟩ := group_distinct_iff.mp ht
  simp only [readQuad, putQuad_getElem]
  simp [hab, hac, had, hbc, hbd, hcd]

/-- A function of four words applied at a group. QRS applies the quarter round so (R80). -/
def updateQuad (f : Quad → Quad) (t : Group) (S : Words16) : Words16 :=
  putQuad S t (f (readQuad S t))

theorem qrs_eq_updateQuad (S : Words16) (t : Group) :
    qrs S t = updateQuad (fun q => qr4 q.a q.b q.c q.d) t S := rfl

/-- What undoes a function on four words undoes it at a group with distinct positions. -/
theorem updateQuad_leftInverse {f g : Quad → Quad} (h : Function.LeftInverse g f) {t : Group}
    (ht : t.distinct = true) : Function.LeftInverse (updateQuad g t) (updateQuad f t) := by
  intro S
  simp only [updateQuad]
  rw [readQuad_putQuad S ht, h, putQuad_putQuad]
  exact putQuad_self S t

theorem qrs_bijective {t : Group} (ht : t.distinct = true) :
    Function.Bijective fun S : Words16 => qrs S t := by
  obtain ⟨g, hleft, hright⟩ := Function.bijective_iff_has_inverse.mp qr4_bijective
  exact Function.bijective_iff_has_inverse.mpr
    ⟨updateQuad g t, updateQuad_leftInverse hleft ht, updateQuad_leftInverse hright ht⟩

/-- Each application of the schedule is a quarter round at a group with distinct positions (R87, R91). -/
theorem applications_bijective (n : Nat) : Function.Bijective (applications n) := by
  induction n with
  | zero => exact Function.bijective_id
  | succ n ih => exact (qrs_bijective (group_distinct (BitVec.ofNat 3 n))).comp ih

theorem rounds_bijective : Function.Bijective rounds := by
  rw [← funext applications_eighty]
  exact applications_bijective 80

/-- Settles O48: the quarter round by its four steps, QRS by the quarter round, ROUNDS by its 80
applications. -/
theorem roundsIsABijection : Obligations.RoundsIsABijection :=
  ⟨qr4_bijective, fun _ ht => qrs_bijective ht, rounds_bijective⟩

end Sys2Proof.Machine
end

section
/-!
PROOFS of the statements of 60_exceptions.md: the two refusals (R125) and the three coincidences of events
(R129).
-/

namespace Sys2Proof.Machine

/-! ## The refusals (R125) -/

/-- An accepted command is performed, but for a START before INIT, which is refused (R112, R125). -/
theorem event_accepted_outcome {p : InPorts} {s : State} (ha : accepts p s = true) :
    (∃ t, event p s = .next t) ∨
    (event p s = .refused .startBeforeInit ∧ p.cmd.op = 0b10 ∧ s.loaded = false) := by
  have ⟨_, _, hi⟩ := accepts_iff.mp ha
  obtain hop | hop | hop | hop := op_cases p.cmd.op
  · exact .inl ⟨_, by rw [event_of_accepts ha, decodeCmd_init hop, exec_init_idle hi]⟩
  · exact .inl ⟨_, by rw [event_of_accepts ha, decodeCmd_setctr hop, exec_setctr_idle hi]⟩
  · cases hl : s.loaded with
    | true => exact .inl ⟨_, event_accepted_start ha hop hl⟩
    | false =>
      obtain ⟨-, hrefused⟩ := startBeforeInitIsRefused
      exact .inr ⟨hrefused p s ha hop hl, hop, rfl⟩
  · exact .inl ⟨_, event_accepted_block ha hop⟩

/-- Where no command is accepted and no reset falls, a reachable sequencer word has an event: nothing in
IDLE, one of the remaining steps elsewhere (R93, R94). -/
theorem event_next_of_reachable {p : InPorts} {s : State} (hr : p.rst = false)
    (ha : accepts p s = false) (hq : s.sw.reachable = true) : ∃ t, event p s = .next t := by
  by_cases h0 : s.sw.stepsLeft = 0
  · rw [event_eq_quiet_of_not_accepts hr ha]
    exact ⟨s, event_idle rfl rfl (SeqWord.eq_idle_of_stepsLeft hq h0)⟩
  · obtain ⟨t, ht, -⟩ := event_stepsLeft hr hq h0
    exact ⟨t, ht⟩

/-- Where no command is accepted and no reset falls, a reserved sequencer word is refused (R60, R125). -/
theorem event_reserved_of_not_accepts {p : InPorts} {s : State} (hr : p.rst = false)
    (ha : accepts p s = false) (hq : s.sw.reachable = false) :
    event p s = .refused .reservedSequencerWord := by
  rw [event_eq_quiet_of_not_accepts hr ha]
  exact event_reserved quietPorts_rst (by simp) hq

/-- Every event answers a next state or is refused, each refusal under its own condition (R125). -/
theorem event_outcome (p : InPorts) (s : State) :
    (∃ t, event p s = .next t) ∨
    (event p s = .refused .startBeforeInit ∧ accepts p s = true ∧ p.cmd.op = 0b10 ∧
      s.loaded = false) ∨
    (event p s = .refused .reservedSequencerWord ∧ accepts p s = false ∧
      s.sw.reachable = false) := by
  cases hr : p.rst with
  | true => exact .inl ⟨_, event_reset s hr⟩
  | false =>
    cases ha : accepts p s with
    | true =>
      obtain hnext | ⟨href, hop, hl⟩ := event_accepted_outcome ha
      · exact .inl hnext
      · exact .inr (.inl ⟨href, rfl, hop, hl⟩)
    | false =>
      cases hq : s.sw.reachable with
      | true => exact .inl (event_next_of_reachable hr ha hq)
      | false => exact .inr (.inr ⟨event_reserved_of_not_accepts hr ha hq, rfl, rfl⟩)

/-- Settles O43: the invariant excludes the reserved words, so only a START before INIT is refused. -/
theorem onlyStartBeforeInitIsRefused : Obligations.OnlyStartBeforeInitIsRefused := by
  intro s h
  obtain hnext | hstart | ⟨-, -, hq⟩ := event_outcome s.portsNow s.takePorts
  · exact .inl hnext
  · exact .inr hstart
  · exact absurd (h.swReachable.symm.trans hq) (by simp)

/-! ## Coincidences of events (R129) -/

theorem accepts_eq_false_of_reset {p : InPorts} (s : State) (hr : p.rst = true) :
    accepts p s = false := by
  simp [accepts, hr]

/-- The result of a FINAL step is an idle engine, whatever is offered during the step (R105, R129). -/
theorem event_final_ends_idle {s : State} (hs : s.sw = ⟨.final, 0, 0⟩) :
    ∃ t, t.sw.ph = .idle ∧ ∀ p : InPorts, p.rst = false → event p s = .next t :=
  ⟨_, rfl, fun _ hr => event_final hr hs⟩

/-- Without reset and without an accepted command only a sequencer step changes the state, and it needs a
busy engine (R9, R129). -/
theorem busy_of_event_ne {p : InPorts} {s t : State} (ha : accepts p s = false)
    (hr : p.rst = false) (h : event p s = .next t) (hne : t ≠ s) : s.busy = true := by
  rw [busy_eq_true]
  cases event_effect h with
  | reset hr' => simp [hr] at hr'
  | init _ _ ha' | setctr _ _ ha' | start _ _ ha' | block _ _ ha' => simp [ha] at ha'
  | idle => exact absurd rfl hne
  | copy _ _ hs | final _ _ hs => simp [hs]
  | mix _ _ hp => simp [hp]

/-- Settles O9, coincidence by coincidence; the two refusals differ in whether a command is accepted. -/
theorem resetWinsAndEventsNeverCoincide : Obligations.ResetWinsAndEventsNeverCoincide := by
  refine ⟨fun p q s hp hq => ?reset, fun p s hs hr => ?final, fun p s ha => ?accepted,
    fun p s t ha hr h hne => busy_of_event_ne ha hr h hne, fun p s => ?refusals⟩
  case reset =>
    have hevent := event_reset s hp
    exact ⟨accepts_eq_false_of_reset s hp, hevent.trans (event_reset s hq).symm, hevent⟩
  case final =>
    obtain ⟨t, hi, ht⟩ := event_final_ends_idle hs
    exact ⟨accepts_eq_false_of_busy (by simp [hs]), t, ht p hr, ht quietPorts rfl, accepts_offer hi⟩
  case accepted =>
    have ⟨_, _, hi⟩ := accepts_iff.mp ha
    exact (busy_eq_false s).mpr hi
  case refusals =>
    obtain ⟨t, h⟩ | ⟨h, ha, -⟩ | ⟨h, ha, -⟩ := event_outcome p s
    · simp [h]
    · simp [h, ha]
    · simp [h, ha]

end Sys2Proof.Machine
end

section
/-!
PROOFS of the statements of 70_reset_and_hazards.md: the reset event (R139, R141), the bounded progress of the
sequencer (R150), and the run from a reset to a block of the block function (R142, R155).
-/

namespace Sys2Proof.Machine

/-! ## Reset (R139, R141) -/

/-- Settles O8, by the registers that the reset event writes. -/
theorem resetEventLeavesIdleEngine : Obligations.ResetEventLeavesIdleEngine := fun _ s hr =>
  ⟨resetEvent s, event_reset s hr, rfl, rfl, rfl, (busy_eq_false _).mpr rfl,
    (cmdReady_eq_true _).mpr rfl, rfl, rfl, rfl⟩

/-! ## Progress (R150) -/

/-- "An idle engine shows a valid output" survives every event but reset: START and BLOCK, which clear
OUT_VALID, leave IDLE, and only FINAL comes back to it (R20). -/
theorem event_keeps_idle_valid {p : InPorts} {s t : State} (hr : p.rst = false)
    (hs : s.sw.ph = .idle → s.outValid = true) (h : event p s = .next t) :
    t.sw.ph = .idle → t.outValid = true := by
  cases event_effect h with
  | reset hr' => simp [hr] at hr'
  | init _ hi | setctr _ hi => exact fun _ => hs hi
  | start | block | copy => nofun
  | idle => exact hs
  | mix _ _ _ hd =>
    intro hi
    obtain ⟨hmix, -⟩ | ⟨hfin, -⟩ := mixAdvance_cases hd
    · cases hmix.symm.trans hi
    · cases (congrArg SeqWord.ph hfin).symm.trans hi
  | final => exact fun _ => rfl

theorem runEvents_keeps_idle_valid {ps : List InPorts} {s t : State} (hn : noReset ps = true)
    (hs : s.sw.ph = .idle → s.outValid = true) (h : runEvents ps s = .next t) :
    t.sw.ph = .idle → t.outValid = true := by
  induction ps generalizing s with
  | nil => cases h; exact hs
  | cons p ps ih =>
    obtain ⟨hr, hn⟩ := noReset_cons.mp hn
    obtain ⟨u, hu, hrun⟩ := runEvents_cons_next h
    exact ih hn (event_keeps_idle_valid hr hs hu) hrun

/-- Settles O29: the steps left count the run down to IDLE, and a run that began busy comes to IDLE with a
valid output. -/
theorem sequencerAlwaysReachesIdle : Obligations.SequencerAlwaysReachesIdle := by
  intro ps s hq hn hlen
  obtain ⟨t, ht, hsw⟩ := runEvents_ends_idle hn hq hlen
  refine ⟨hlen.trans_le (SeqWord.stepsLeft_le s.sw), fun k hk => runEvents_take_busy hn hq hlen hk,
    t, ht, hsw, fun hb => ?valid⟩
  case valid =>
    have hbegin : s.sw.ph = .idle → s.outValid = true := fun hi => absurd hi ((busy_eq_true s).mp hb)
    exact runEvents_keeps_idle_valid hn hbegin ht (by rw [hsw])

/-! ## From a reset to a block (R142, R155) -/

/-- An idle engine waits through quiet events (R94). -/
theorem runEvents_replicate_quietPorts {s : State} (hs : s.sw = ⟨.idle, 0, 0⟩) (n : Nat) :
    runEvents (List.replicate n quietPorts) s = .next s := by
  induction n with
  | zero => rfl
  | succ n ih => exact (runEvents_cons (event_idle rfl rfl hs)).trans ih

/-- An event after a quiet gap of any length is the event without the gap (R94). -/
theorem runEvents_after_quiet {p : InPorts} {s t : State} (hs : s.sw = ⟨.idle, 0, 0⟩) (n : Nat)
    (h : event p s = .next t) (ps : List InPorts) :
    runEvents (List.replicate n quietPorts ++ p :: ps) s = runEvents ps t :=
  (runEvents_append (runEvents_replicate_quietPorts hs n)).trans (runEvents_cons h)

/-- INIT, SETCTR and START with quiet gaps before each leave what BLOCK leaves (R113, R142). -/
theorem runEvents_spaced_init_setctr_start {s : State} (hs : s.sw = ⟨.idle, 0, 0⟩)
    (key : BitVec 256) (nonce : BitVec 96) (ctr : BitVec 32) (l m n : Nat) (ps : List InPorts) :
    runEvents (List.replicate l quietPorts ++ offer ⟨0b00, key, nonce, 0⟩ ::
      (List.replicate m quietPorts ++ offer ⟨0b01, 0, 0, ctr⟩ ::
        (List.replicate n quietPorts ++ offer ⟨0b10, 0, 0, 0⟩ :: ps))) s =
      runEvents ps (s.loadBlock key ctr nonce).beginBlock := by
  have hi : s.sw.ph = .idle := congrArg SeqWord.ph hs
  refine (runEvents_after_quiet hs l (event_offer_init hi key nonce 0) _).trans <|
    (runEvents_after_quiet ?afterInit m (event_offer_setctr ?acceptsSetctr 0 0 ctr) _).trans <|
    runEvents_after_quiet ?afterSetctr n (event_offer_start ?acceptsStart ?loaded rfl) ps
  case afterInit | afterSetctr => exact hs
  case acceptsSetctr | acceptsStart => exact hi
  case loaded => rfl

/-- Settles O38: the reset leaves an idle engine, the three commands begin the block of the operands' original
state, and 82 events complete it. -/
theorem initSetctrStartDeliversBlockFn : Obligations.InitSetctrStartDeliversBlockFn := by
  intro key nonce ctr r ps l m n s hr hn hlen
  obtain ⟨t, ht, hi, hstage⟩ :=
    runEvents_beginBlock (loadBlock_loaded (resetEvent s) key ctr nonce) hn hlen
  obtain ⟨-, hv, ho⟩ := hstage.complete hi
  refine ⟨t, ?run, (busy_eq_false t).mpr hi, hv, fun look => ?port⟩
  case run =>
    simp only [List.append_assoc, List.cons_append]
    rw [runEvents_cons (event_reset s hr), runEvents_spaced_init_setctr_start rfl, ht]
  case port => rw [State.outBlock, if_pos hv, ho, loadBlock_x, blockFn]

end Sys2Proof.Machine
end
